-- ==== Sys2Proof/Word.lean ====
section
/-! DEFINITION. The word type of the machine: every register, memory cell, address and operand is one
unsigned byte (R9, R23, 00_scope.md and 10_state.md). -/

namespace Sys2Proof

/-- An unsigned 8-bit value, 0..255 (R11, R23). Bit 0 is the least significant (R12). -/
abbrev Byte := BitVec 8

end Sys2Proof
end

