-- ==== Sys2Proof/Machine/Alu.lean ====
section
/-! DEFINITION. The `alu_8bit` block (R100, R101, 42_arithmetic.md): addition and subtraction of bytes
modulo 256, with no carry, borrow, overflow or zero output. -/

namespace Sys2Proof.Machine

/-- The ALU operations of R100; there are no others (R102). -/
inductive AluOp where
  | add
  | sub
deriving DecidableEq, Repr

/-- The arithmetic law of R101: the exact integer result reduced modulo 256. -/
def alu (f : AluOp) (p q : Byte) : Byte :=
  match f with
  | .add => BitVec.ofInt 8 ((p.toNat : Int) + (q.toNat : Int))
  | .sub => BitVec.ofInt 8 ((p.toNat : Int) - (q.toNat : Int))

end Sys2Proof.Machine
end

