-- ==== Sys2Proof/Config.lean ====
section
/-! DEFINITION. The implementation parameters of R9 (00_scope.md). Every one is fixed by the spec; there
is no free parameter and no free value. -/

namespace Sys2Proof.Config

/-- Memory size in bytes, addresses 0..255 (R9, R42). -/
def memorySize : Nat := 256

/-- Number of registers: PC, R1, R2; the valid indices are below it (R9, R22). -/
def registerCount : Nat := 3

/-- Length of every instruction in bytes (R9, R60). -/
def instructionLength : Nat := 3

/-- The default PC increment (R9, R81). -/
def defaultIncrement : Nat := 3

/-- The PC at reset (R9, R38). -/
def resetPc : Byte := 8

/-- R1 at reset (R9, R38). -/
def resetR1 : Byte := 0

/-- R2 at reset (R9, R38). -/
def resetR2 : Byte := 0

/-- What an address that the memory list does not name reads as.
DESIGN CHOICE (unsafe, log entry 2): R44 gives memory no reset value of its own, the host supplies all
256 bytes. In a launched state the list names every nonzero byte of the host's image, so nothing rests on
this value there. -/
def unlistedByte : Byte := 0

end Sys2Proof.Config
end

