-- ==== Sys2Proof/Syntax.lean ====
section
/-! DEFINITION. The instruction set as syntax: one constructor of `Instr` for each row of
spec/opcode_table.json (R63, R66, 30_encoding.md), and the names of the three registers (R22). -/

namespace Sys2Proof

/-- The tagged register identifiers of R26: index 0 is PC, 1 is R1, 2 is R2 (R22). -/
inductive Reg where
  | pc
  | r1
  | r2
deriving DecidableEq, Repr

/-- The nine opcodes of R66, without operands. -/
inductive Opcode where
  | load
  | store
  | add
  | sub
  | addi
  | subi
  | jump
  | beqz
  | halt
deriving DecidableEq, Repr

/-- The nine instructions with operand bytes `a` and `b` as fetched (R61, R63).
A register operand stays a raw byte: a word with an illegal index decodes to the instruction its opcode
names and faults only when it is run (R69, R83). Unused bytes are kept, so that each three-byte word of a
legal opcode is exactly one term (R68, R115: they have no effect). -/
inductive Instr where
  /-- R96: `x[a] <- memory[b]`. -/
  | load (a b : Byte)
  /-- R97: `memory[b] <- x[a]`. -/
  | store (a b : Byte)
  /-- R103: `x[a] <- x[a] + x[b]`. -/
  | add (a b : Byte)
  /-- R104: `x[a] <- x[a] - x[b]`. -/
  | sub (a b : Byte)
  /-- R105: `x[a] <- x[a] + b`, b an immediate. -/
  | addi (a b : Byte)
  /-- R106: `x[a] <- x[a] - b`, b an immediate. -/
  | subi (a b : Byte)
  /-- R109: `pc <- a`; b is unused. -/
  | jump (a b : Byte)
  /-- R111: skip `b` extra bytes forward if `x[a] = 0`. -/
  | beqz (a b : Byte)
  /-- R114: stop; a and b are unused. -/
  | halt (a b : Byte)
deriving DecidableEq, Repr

end Sys2Proof
end

