-- ==== Sys2Proof/Machine/State.lean ====
section
/-! DEFINITION. The whole state of the machine (10_state.md, 20_memory.md): the register file, the status
and the 256-byte memory; and the reasons a step can stop. Nothing else lasts from one cycle to the next. -/

namespace Sys2Proof.Machine

/-- The three synchronous faults of the machine (R118). Raising one is a step of the machine that ends
with status Faulted (R16, R95); the kind is part of the status (R32). -/
inductive FaultKind where
  /-- R119: the opcode byte matches no defined instruction. -/
  | invalidOpcode
  /-- R120: a register-index operand is outside 0, 1, 2. -/
  | invalidRegister
  /-- R121: the fetch or the advance would leave the 256-byte buffer. -/
  | programRanOff
deriving DecidableEq, Repr

/-- The status of the state machine (R32). Halted and Faulted are terminal. -/
inductive Status where
  | running
  | halted
  | faulted (kind : FaultKind)
deriving DecidableEq, Repr

/-- Memory as (address, byte) pairs in one canonical form (`Memory.wf` in Machine/Ops.lean): addresses
strictly rising and below 256, no entry equal to what an unlisted address reads as (R42). -/
abbrev Memory := List Host.Cell

/-- Everything the spec gives the machine (opening of 10_state.md). -/
structure State where
  /-- Register 0, the program counter (R22, R28). -/
  pc : Byte
  /-- Register 1 (R22). -/
  r1 : Byte
  /-- Register 2 (R22). -/
  r2 : Byte
  /-- The status of the state machine (R32). -/
  status : Status
  /-- The 256-byte memory (R42). -/
  mem : Memory
deriving DecidableEq, Repr

/-- The reset state of R38: PC = 8, R1 = R2 = 0, Running. The memory has no reset value of its own (R44):
nothing is listed here, and `launch` (Machine/Launch.lean) puts in the host's 256 bytes. -/
def State.reset : State where
  pc := Config.resetPc
  r1 := Config.resetR1
  r2 := Config.resetR2
  status := .running
  mem := []

/-- Why a step gives no next state. No instruction raises one: a machine fault (`FaultKind`) is a next
state. Only `step` raises these, in the terminal statuses, where no cycle runs (R41, R117). DEDUCED
(safe, log entry 1): the machine does not go on there, and the state it keeps is the one already reached. -/
inductive Fault where
  /-- Raised by `step` in status Halted: the run has ended well (R141). Safe. -/
  | launchHalted
  /-- Raised by `step` in status Faulted: the run has ended badly with this kind (R135, R141). Safe. -/
  | launchFaulted (kind : FaultKind)
deriving DecidableEq, Repr

/-- Why the model gives no meaning. -/
inductive Refusal where
  /-- An instruction without a meaning yet; raised by no arm of `exec` in this model. Safe. -/
  | notModelled (mnemonic : String)
  /-- Raised by `launch` for a memory image that is not 256 bytes long (R139: no cycle runs and no outcome
  is given). Safe. -/
  | imageLength (length : Nat)
deriving DecidableEq, Repr

end Sys2Proof.Machine
end

