-- ==== Sys2Proof/Machine/Ops.lean ====
section
/-! DEFINITION. The named operations over memory, registers and status that every meaning is written with:
`MemRead` and `MemWrite` (R14), `x[i]` (R13), the advance (R88) and raising a fault (R16, R125), the one
shared operation by which the machine takes any of its three faults. There is no return from a fault
(R126), so none stands beside it. -/

namespace Sys2Proof.Machine

/-- The canonical form of a memory: addresses strictly rising, all below 256, and no entry equal to what
an unlisted address reads as. -/
abbrev Memory.wf (m : Memory) : Prop :=
  m.Pairwise (fun c d => c.1 < d.1) ∧ ∀ c ∈ m, c.1 < Config.memorySize ∧ c.2 ≠ Config.unlistedByte

/-- The byte at an address given as a number. -/
def Memory.readAt (m : Memory) (a : Nat) : Byte :=
  match m with
  | [] => Config.unlistedByte
  | c :: rest => if c.1 = a then c.2 else Memory.readAt rest a

/-- The memory without any entry for an address. -/
def Memory.eraseAt (m : Memory) (a : Nat) : Memory := m.filter (fun c => c.1 ≠ a)

/-- Put an entry before the first one with a higher address. -/
def Memory.insertAt (m : Memory) (a : Nat) (v : Byte) : Memory :=
  match m with
  | [] => [(a, v)]
  | c :: rest => if a < c.1 then (a, v) :: c :: rest else c :: Memory.insertAt rest a v

/-- Replace the byte at an address given as a number, keeping the canonical form. -/
def Memory.writeAt (m : Memory) (a : Nat) (v : Byte) : Memory :=
  if v = Config.unlistedByte then Memory.eraseAt m a else Memory.insertAt (Memory.eraseAt m a) a v

/-- `MemRead(addr, 1)` of R14: every address is a byte, so it names one of the 256 cells (R42, R123). -/
def Memory.read (m : Memory) (addr : Byte) : Byte := Memory.readAt m addr.toNat

/-- `MemWrite(addr, 1, v)` of R14. -/
def Memory.write (m : Memory) (addr v : Byte) : Memory := Memory.writeAt m addr.toNat v

/-- The entries for a list of bytes at consecutive addresses from `first` on. -/
def Memory.ofBytesFrom (first : Nat) (bytes : List Byte) : Memory :=
  match bytes with
  | [] => []
  | v :: rest =>
    if v = Config.unlistedByte then Memory.ofBytesFrom (first + 1) rest
    else (first, v) :: Memory.ofBytesFrom (first + 1) rest

/-- All 256 bytes in address order, as the host reads them (R140). -/
def Memory.toBytes (m : Memory) : List Byte :=
  (List.range Config.memorySize).map (Memory.readAt m)

/-- Read a register: `x[i]` of R13. -/
def State.reg (s : State) (r : Reg) : Byte :=
  match r with
  | .pc => s.pc
  | .r1 => s.r1
  | .r2 => s.r2

/-- Write a register: `x[i] <- v` of R13. No register is hardwired (R25). -/
def State.setReg (s : State) (r : Reg) (v : Byte) : State :=
  match r with
  | .pc => { s with pc := v }
  | .r1 => { s with r1 := v }
  | .r2 => { s with r2 := v }

/-- Write one byte of memory and nothing else. -/
def State.store (s : State) (addr v : Byte) : State := { s with mem := s.mem.write addr v }

/-- `raise F` of R16: the status becomes Faulted(F) and nothing else changes. No handler is entered and
nothing is saved (R125); the PC stays where the cycle left it (R90, R119 to R121). -/
def raiseFault (kind : FaultKind) (s : State) : State := { s with status := .faulted kind }

/-- The `pc_incrementer` block of R87: the low 8 bits of the sum, and the run-off output. -/
def pcIncrementer (pcPost : Byte) (inc : Nat) : Byte × Bool :=
  (BitVec.ofNat 8 (pcPost.toNat + inc), decide (Config.memorySize ≤ pcPost.toNat + inc))

/-- The advance of R88, after the execute stage: `t = pc + inc` as an integer; ProgramRanOff if
`t >= 256`, with the execute stage's write kept and the PC not advanced (R90), else `pc <- t`. -/
def advance (inc : Nat) (s : State) : State :=
  let out := pcIncrementer s.pc inc
  if out.2 then raiseFault .programRanOff s else { s with pc := out.1 }

end Sys2Proof.Machine
end

