-- ==== Sys2Proof/Machine/Operands.lean ====
section
/-! DEFINITION. The operand forms of R63 and R64: a register index, an absolute memory address, an unsigned
immediate, an absolute jump target and an unsigned forward offset. Each is the whole operand byte. -/

namespace Sys2Proof.Machine

/-- The register a register-index byte names, by value and never masked or reduced (R22, R26, R65). -/
def regOfIndex (i : Byte) : Option Reg :=
  match i with
  | 0x00#8 => some .pc
  | 0x01#8 => some .r1
  | 0x02#8 => some .r2
  | _ => none

/-- The effective address of Load and Store: the operand byte itself (R99). -/
def effectiveAddress (b : Byte) : Byte := b

/-- The immediate of Addi and Subi: the operand byte, unsigned (R64). -/
def immediate (b : Byte) : Byte := b

/-- The target of Jump: the operand byte, an absolute address (R64). -/
def jumpTarget (a : Byte) : Byte := a

/-- The offset of Beqz: the operand byte as an unsigned number, counted forward only (R64). -/
def forwardOffset (b : Byte) : Nat := b.toNat

/-- `checkReg(i)` of R16 before anything is read or written (R83): raise InvalidRegister if the index
names no register, else go on with the register. -/
def withRegister (i : Byte) (s : State) (k : Reg → State) : State :=
  match regOfIndex i with
  | none => raiseFault .invalidRegister s
  | some r => k r

end Sys2Proof.Machine
end

