-- ==== Sys2Proof/Machine/Arithmetic.lean ====
section
/-! DEFINITION. The meanings of Add, Sub, Addi and Subi (42_arithmetic.md) over two shared forms: register
with register, and register with immediate. -/

namespace Sys2Proof.Machine

/-- The register-register form: check a, then b (R83, R91), `x[a] <- f(x[a], x[b])` with both read before
the write (R17), advance 3 from the PC as written. -/
def aluRegister (f : AluOp) (a b : Byte) (s : State) : State :=
  withRegister a s fun ra => withRegister b s fun rb =>
    advance Config.defaultIncrement (s.setReg ra (alu f (s.reg ra) (s.reg rb)))

/-- The register-immediate form: check a, `x[a] <- f(x[a], b)`, advance 3 from the PC as written. -/
def aluImmediate (f : AluOp) (a b : Byte) (s : State) : State :=
  withRegister a s fun ra =>
    advance Config.defaultIncrement (s.setReg ra (alu f (s.reg ra) (immediate b)))

/-- Add, R103. -/
def execAdd (a b : Byte) (s : State) : Host.Outcome State Fault Refusal := .next (aluRegister .add a b s)

/-- Sub, R104. -/
def execSub (a b : Byte) (s : State) : Host.Outcome State Fault Refusal := .next (aluRegister .sub a b s)

/-- Addi, R105. -/
def execAddi (a b : Byte) (s : State) : Host.Outcome State Fault Refusal := .next (aluImmediate .add a b s)

/-- Subi, R106. -/
def execSubi (a b : Byte) (s : State) : Host.Outcome State Fault Refusal := .next (aluImmediate .sub a b s)

end Sys2Proof.Machine
end

