-- ==== Sys2Proof/Machine/Flags.lean ====
section
/-! DEFINITION. The machine has no flags, condition codes or predicate registers (R34), so no instruction
computes one. This file holds the one condition an instruction tests and the numeric form of the status. -/

namespace Sys2Proof.Machine

/-- The condition of Beqz, on the register's value directly (R34, R111). -/
def isZero (v : Byte) : Bool := decide (v.toNat = 0)

/-- The 2-bit `status` field of R33. -/
def statusCode (st : Status) : BitVec 2 :=
  match st with
  | .running => 0
  | .halted => 1
  | .faulted _ => 2

/-- The code of a fault kind in R33. -/
def faultKindCode (kind : FaultKind) : BitVec 2 :=
  match kind with
  | .invalidOpcode => 1
  | .invalidRegister => 2
  | .programRanOff => 3

/-- The 2-bit `fault_kind` field of R33. -/
def statusFaultCode (st : Status) : BitVec 2 :=
  match st with
  | .running => 0
  | .halted => 0
  | .faulted kind => faultKindCode kind

end Sys2Proof.Machine
end

