-- ==== Sys2Proof/Machine/ControlTransfer.lean ====
section
/-! DEFINITION. The meanings of Jump and Beqz (43_control_transfer.md). No delay slot, no link register
(R110, R112). -/

namespace Sys2Proof.Machine

/-- Jump, R109: `pc <- a`, increment 0; a is no register index and b is ignored (R68). -/
def execJump (a _b : Byte) (s : State) : Host.Outcome State Fault Refusal :=
  .next (advance 0 { s with pc := jumpTarget a })

/-- The increment of Beqz (R81, R111): `3 + b` when the tested value is zero, else 3. -/
def branchIncrement (v b : Byte) : Nat :=
  if isZero v then Config.defaultIncrement + forwardOffset b else Config.defaultIncrement

/-- Beqz, R111. -/
def execBeqz (a b : Byte) (s : State) : Host.Outcome State Fault Refusal :=
  .next (withRegister a s fun r => advance (branchIncrement (s.reg r) b) s)

end Sys2Proof.Machine
end

