-- ==== Sys2Proof/Machine/Halt.lean ====
section
/-! DEFINITION. The meaning of Halt (44_halt.md), the only system instruction (R116). -/

namespace Sys2Proof.Machine

/-- Halt, R114: the status becomes Halted and the cycle ends with no advance, so the PC keeps the Halt's
own address (R85). The operand bytes are ignored (R115). -/
def execHalt (_a _b : Byte) (s : State) : Host.Outcome State Fault Refusal :=
  .next { s with status := .halted }

end Sys2Proof.Machine
end

