-- ==== Sys2Proof/Machine/LoadStore.lean ====
section
/-! DEFINITION. The meanings of Load and Store (41_load_store.md): register check, execute stage and
advance. -/

namespace Sys2Proof.Machine

/-- Load, R96: `x[a] <- memory[b]`, advance 3 from the PC as written. -/
def execLoad (a b : Byte) (s : State) : Host.Outcome State Fault Refusal :=
  .next (withRegister a s fun r =>
    advance Config.defaultIncrement (s.setReg r (s.mem.read (effectiveAddress b))))

/-- Store, R97: `memory[b] <- x[a]`, advance 3. The byte stays written if the advance runs off (R90). -/
def execStore (a b : Byte) (s : State) : Host.Outcome State Fault Refusal :=
  .next (withRegister a s fun r =>
    advance Config.defaultIncrement (s.store (effectiveAddress b) (s.reg r)))

end Sys2Proof.Machine
end

