-- ==== Sys2Proof/Machine/Dispatch.lean ====
section
/-! DEFINITION. One arm per instruction: the stages of the cycle after decode (R83, R84, R88). -/

namespace Sys2Proof.Machine

def exec (i : Instr) (s : State) : Host.Outcome State Fault Refusal :=
  match i with
  | .load a b => Sys2Proof.Machine.execLoad a b s
  | .store a b => Sys2Proof.Machine.execStore a b s
  | .add a b => Sys2Proof.Machine.execAdd a b s
  | .sub a b => Sys2Proof.Machine.execSub a b s
  | .addi a b => Sys2Proof.Machine.execAddi a b s
  | .subi a b => Sys2Proof.Machine.execSubi a b s
  | .jump a b => Sys2Proof.Machine.execJump a b s
  | .beqz a b => Sys2Proof.Machine.execBeqz a b s
  | .halt a b => Sys2Proof.Machine.execHalt a b s

end Sys2Proof.Machine
end

