-- ==== Sys2Proof/Decode.lean ====
section
/-! DEFINITION. The decoder, total on any bytes and rejecting by name, then the encoder, both written from
the opcode map of R66 and the format of R61 (30_encoding.md); last the 24-bit table word of R62. -/

namespace Sys2Proof

/-- Why the decoder gives no instruction. -/
inductive DecodeError where
  /-- Fewer than three bytes were given (R60: every instruction is three bytes). -/
  | truncated
  /-- The first byte is not one of the nine opcodes (R67). -/
  | invalidOpcode (op : Byte)
deriving DecidableEq, Repr

/-- The opcode map of R66: an exact match on all eight bits. Every other byte is illegal (R67). -/
def opcodeOfByte (op : Byte) : Option Opcode :=
  match op with
  | 0x01#8 => some .load
  | 0x02#8 => some .store
  | 0x03#8 => some .add
  | 0x04#8 => some .sub
  | 0x05#8 => some .addi
  | 0x06#8 => some .subi
  | 0x07#8 => some .jump
  | 0x08#8 => some .beqz
  | 0xff#8 => some .halt
  | _ => none

/-- The instruction an opcode makes of its two operand bytes (R63). -/
def instrOf (k : Opcode) (a b : Byte) : Instr :=
  match k with
  | .load => .load a b
  | .store => .store a b
  | .add => .add a b
  | .sub => .sub a b
  | .addi => .addi a b
  | .subi => .subi a b
  | .jump => .jump a b
  | .beqz => .beqz a b
  | .halt => .halt a b

/-- Read one instruction from the front of a byte list: opcode, operand a, operand b in rising address
order (R48, R61), and return it with the bytes after it. -/
def decode (bytes : List Byte) : Except DecodeError (Instr × List Byte) :=
  match bytes with
  | op :: a :: b :: rest =>
    match opcodeOfByte op with
    | some k => .ok (instrOf k a b, rest)
    | none => .error (.invalidOpcode op)
  | _ => .error .truncated

/-- The three bytes of an instruction in rising address order (R61, R66). -/
def encode (i : Instr) : List Byte :=
  match i with
  | .load a b => [0x01, a, b]
  | .store a b => [0x02, a, b]
  | .add a b => [0x03, a, b]
  | .sub a b => [0x04, a, b]
  | .addi a b => [0x05, a, b]
  | .subi a b => [0x06, a, b]
  | .jump a b => [0x07, a, b]
  | .beqz a b => [0x08, a, b]
  | .halt a b => [0xff, a, b]

/-- The three bytes, in memory order, of the table word `W` of R62: `W[23:16]` is op, `W[15:8]` is a,
`W[7:0]` is b. Bits at and above `nbits` count as 0. DEDUCED (safe, log entry 3): the table numbers an
instruction as this one 24-bit word. -/
def bytesOfTableWord (nbits w : Nat) : List Byte :=
  let v := w % 2 ^ nbits
  [BitVec.ofNat 8 (v / 65536), BitVec.ofNat 8 (v / 256), BitVec.ofNat 8 v]

/-- The instruction the decoder reads from a table word (R62). -/
def decodeTableWord (nbits w : Nat) : Option Instr :=
  match decode (bytesOfTableWord nbits w) with
  | .ok (i, _) => some i
  | .error _ => none

end Sys2Proof
end

