-- ==== Sys2Proof/Machine/Fetch.lean ====
section
/-! DEFINITION. The stages of the cycle before execute (R79, R80, R82), what a terminal status answers
(R41), and the placing of an instruction's bytes where the next cycle fetches. -/

namespace Sys2Proof.Machine

/-- The highest PC at which three bytes lie inside the buffer: 253 (R79). -/
def lastFetch : Nat := Config.memorySize - Config.instructionLength

/-- The three bytes `(op, a, b)` at the PC (R80). `pc + 1` and `pc + 2` stay at most 255 by the fetch check. -/
def fetchBytes (s : State) : List Byte :=
  [s.mem.read s.pc, s.mem.read (s.pc + 1), s.mem.read (s.pc + 2)]

/-- Fetch check, fetch and decode: the instruction to run, or the fault raised. The fetch check comes
first, whatever the opcode byte holds (R79, R91); an illegal opcode raises InvalidOpcode (R82). -/
def fetchDecode (s : State) : Except FaultKind Instr :=
  if lastFetch < s.pc.toNat then .error .programRanOff
  else
    match decode (fetchBytes s) with
    | .ok (i, _) => .ok i
    | .error _ => .error .invalidOpcode

/-- Why no cycle runs in this status, if none does (R41, R78, R117; log entry 1). -/
def stopReason (st : Status) : Option Fault :=
  match st with
  | .running => none
  | .halted => some .launchHalted
  | .faulted kind => some (.launchFaulted kind)

/-- The state with a list of bytes stored from an address on. -/
def placeBytes (addr : Byte) (bytes : List Byte) (s : State) : State :=
  match bytes with
  | [] => s
  | v :: rest => placeBytes (addr + 1) rest (s.store addr v)

/-- The state made ready for a fetch: unchanged if a cycle can fetch from it, else Running, and at the
reset PC if the PC leaves no room for three bytes (log entry 4). -/
def readyToFetch (s : State) : State :=
  { s with
    status := .running
    pc := if lastFetch < s.pc.toNat then Config.resetPc else s.pc }

end Sys2Proof.Machine
end

