-- ==== Sys2Proof/Machine/Step.lean ====
section
/-! DEFINITION. One step of the machine: one whole fetch-decode-execute cycle (R78, R86,
40_fetch_decode_execute.md). -/

namespace Sys2Proof.Machine

/-- R86. A cycle that faults is a step too and ends with status Faulted (R95); in a terminal status no
cycle runs (R41). -/
def step (s : State) : Host.Outcome State Fault Refusal :=
  match stopReason s.status with
  | some f => .fault f
  | none =>
    match fetchDecode s with
    | .error kind => .next (raiseFault kind s)
    | .ok i => exec i s

/-- The state with the instruction of a table word (R62) stored where the next cycle fetches it: at the
PC, opcode lowest (R48). It stands for the host's load (R44; log entry 4). -/
def State.withFetchWord (s : State) (nbits w : Nat) : State :=
  placeBytes (readyToFetch s).pc (bytesOfTableWord nbits w) (readyToFetch s)

end Sys2Proof.Machine
end

