-- ==== Sys2Proof/Machine/Assembly.lean ====
section
/-! DEFINITION. The written form of programs (R73 to R76, 30_encoding.md): the lines of the syntax, the bytes
each stands for and the text it is written as. The syntax is the spec's own (D13) and has no meaning beside
the bytes; the machine does not use this file. -/

namespace Sys2Proof.Machine

/-- A number 0..255 as it is written: decimal or hexadecimal (R74). -/
inductive Numeral where
  | decimal (v : Byte)
  | hexadecimal (v : Byte)
deriving DecidableEq, Repr

/-- A register operand as it is written: a name, or a raw index `%n` for any byte n, so that illegal indices
can be written down (R74). -/
inductive RegName where
  | pc
  | r1
  | r2
  | raw (n : Byte)
deriving DecidableEq, Repr

/-- One line of the syntax (R73, R74). -/
inductive AsmLine where
  | load (r : RegName) (addr : Numeral)
  | store (r : RegName) (addr : Numeral)
  | add (r s : RegName)
  | sub (r s : RegName)
  | addi (r : RegName) (imm : Numeral)
  | subi (r : RegName) (imm : Numeral)
  | jump (target : Numeral)
  /-- `jump target ; b=n`: a Jump whose unused byte is n. -/
  | jumpWith (target b : Numeral)
  | beqz (r : RegName) (offset : Numeral)
  | halt
  /-- `halt ; a=n b=n`: a Halt whose unused bytes are as given. -/
  | haltWith (a b : Numeral)
  /-- `.byte n`: one raw byte. -/
  | byte (n : Numeral)
deriving DecidableEq, Repr

/-- The number a numeral stands for. -/
def numeralValue (n : Numeral) : Byte :=
  match n with
  | .decimal v => v
  | .hexadecimal v => v

/-- The index byte a register operand stands for (R74, R76). -/
def regNameIndex (r : RegName) : Byte :=
  match r with
  | .pc => 0
  | .r1 => 1
  | .r2 => 2
  | .raw n => n

/-- The bytes of a line: the table of R73; the unused bytes are 00 unless written out (R74). -/
def asmBytes (line : AsmLine) : List Byte :=
  match line with
  | .load r addr => [0x01, regNameIndex r, numeralValue addr]
  | .store r addr => [0x02, regNameIndex r, numeralValue addr]
  | .add r s => [0x03, regNameIndex r, regNameIndex s]
  | .sub r s => [0x04, regNameIndex r, regNameIndex s]
  | .addi r imm => [0x05, regNameIndex r, numeralValue imm]
  | .subi r imm => [0x06, regNameIndex r, numeralValue imm]
  | .jump target => [0x07, numeralValue target, 0x00]
  | .jumpWith target b => [0x07, numeralValue target, numeralValue b]
  | .beqz r offset => [0x08, regNameIndex r, numeralValue offset]
  | .halt => [0xff, 0x00, 0x00]
  | .haltWith a b => [0xff, numeralValue a, numeralValue b]
  | .byte n => [numeralValue n]

/-- The bytes of a list of lines, one after the other. -/
def assemble (lines : List AsmLine) : List Byte := lines.flatMap asmBytes

/-- The register operand that writes an index byte, by name where it has one (R74). -/
def regNameOfIndex (i : Byte) : RegName :=
  match i with
  | 0x00#8 => .pc
  | 0x01#8 => .r1
  | 0x02#8 => .r2
  | _ => .raw i

/-- A line that writes an instruction; a Jump or Halt with a nonzero unused byte takes the form of R74 that
writes it out. -/
def asmLineOf (i : Instr) : AsmLine :=
  match i with
  | .load a b => .load (regNameOfIndex a) (.decimal b)
  | .store a b => .store (regNameOfIndex a) (.decimal b)
  | .add a b => .add (regNameOfIndex a) (regNameOfIndex b)
  | .sub a b => .sub (regNameOfIndex a) (regNameOfIndex b)
  | .addi a b => .addi (regNameOfIndex a) (.decimal b)
  | .subi a b => .subi (regNameOfIndex a) (.decimal b)
  | .jump a b => if b = 0 then .jump (.decimal a) else .jumpWith (.decimal a) (.decimal b)
  | .beqz a b => .beqz (regNameOfIndex a) (.decimal b)
  | .halt a b => if a = 0 ∧ b = 0 then .halt else .haltWith (.decimal a) (.decimal b)

/-- A numeral as text. -/
def numeralText (n : Numeral) : String :=
  match n with
  | .decimal v => toString v.toNat
  | .hexadecimal v => "0x" ++ String.ofList (Nat.toDigits 16 v.toNat)

/-- A register operand as text. -/
def regNameText (r : RegName) : String :=
  match r with
  | .pc => "pc"
  | .r1 => "r1"
  | .r2 => "r2"
  | .raw n => "%" ++ toString n.toNat

/-- A line as text (R73, R74). -/
def asmText (line : AsmLine) : String :=
  match line with
  | .load r addr => "load " ++ regNameText r ++ ", " ++ numeralText addr
  | .store r addr => "store " ++ regNameText r ++ ", " ++ numeralText addr
  | .add r s => "add " ++ regNameText r ++ ", " ++ regNameText s
  | .sub r s => "sub " ++ regNameText r ++ ", " ++ regNameText s
  | .addi r imm => "addi " ++ regNameText r ++ ", " ++ numeralText imm
  | .subi r imm => "subi " ++ regNameText r ++ ", " ++ numeralText imm
  | .jump target => "jump " ++ numeralText target
  | .jumpWith target b => "jump " ++ numeralText target ++ " ; b=" ++ numeralText b
  | .beqz r offset => "beqz " ++ regNameText r ++ ", " ++ numeralText offset
  | .halt => "halt"
  | .haltWith a b => "halt ; a=" ++ numeralText a ++ " b=" ++ numeralText b
  | .byte n => ".byte " ++ numeralText n

end Sys2Proof.Machine
end

