-- ==== Sys2Proof/Machine/Datapath.lean ====
section
/-! DEFINITION. The cycle as its functional blocks (R92, 40_fetch_decode_execute.md): `register_file`
(R27), `memory_interface` (R46), `instruction_decoder` (R70), `alu_8bit` (R100) and `pc_incrementer` (R87).
The blocks hold no state (R3). The machine itself is `step`; an obligation says that the two are equal. -/

namespace Sys2Proof.Machine

/-- The `mem` column of R70. -/
inductive MemControl where
  | none
  | readB
  | writeB
deriving DecidableEq, Repr

/-- The `src2` column of R70. -/
inductive Source2 where
  | none
  | registerB
  | byteB
deriving DecidableEq, Repr

/-- The `inc` column of R70. -/
inductive IncControl where
  /-- Increment 3. -/
  | three
  /-- Increment 0, with `pc <- a`. -/
  | zeroToA
  /-- Increment `3 + b` if `x[a] = 0`, else 3. -/
  | threeOrSkipB
  /-- No advance: Halt. -/
  | noAdvance
deriving DecidableEq, Repr

/-- One row of R70. -/
structure Control where
  kind : Opcode
  chkA : Bool
  chkB : Bool
  mem : MemControl
  alu : Option AluOp
  src2 : Source2
  inc : IncControl
deriving DecidableEq, Repr

/-- The `instruction_decoder` block: the table of R70; `none` is its row INVALID. -/
def instructionDecoder (op : Byte) : Option Control :=
  match op with
  | 0x01#8 => some ⟨.load, true, false, .readB, none, .none, .three⟩
  | 0x02#8 => some ⟨.store, true, false, .writeB, none, .none, .three⟩
  | 0x03#8 => some ⟨.add, true, true, .none, some .add, .registerB, .three⟩
  | 0x04#8 => some ⟨.sub, true, true, .none, some .sub, .registerB, .three⟩
  | 0x05#8 => some ⟨.addi, true, false, .none, some .add, .byteB, .three⟩
  | 0x06#8 => some ⟨.subi, true, false, .none, some .sub, .byteB, .three⟩
  | 0x07#8 => some ⟨.jump, false, false, .none, none, .none, .zeroToA⟩
  | 0x08#8 => some ⟨.beqz, true, false, .none, none, .none, .threeOrSkipB⟩
  | 0xff#8 => some ⟨.halt, false, false, .none, none, .none, .noAdvance⟩
  | _ => none

/-- The check output `bad(i) = (i > 2)` of R27. -/
def registerFileBad (i : Byte) : Bool := decide (Config.registerCount ≤ i.toNat)

/-- A read port of R27. For an index that names no register nothing in a cycle uses the output: the check
raises first, or the control values select something else. -/
def registerFileRead (s : State) (i : Byte) : Byte :=
  match i with
  | 0x00#8 => s.pc
  | 0x01#8 => s.r1
  | 0x02#8 => s.r2
  | _ => 0

/-- The write port of R27, written when `we` is set. -/
def registerFileWrite (s : State) (we : Bool) (wa wd : Byte) : State :=
  if we then
    match wa with
    | 0x00#8 => { s with pc := wd }
    | 0x01#8 => { s with r1 := wd }
    | 0x02#8 => { s with r2 := wd }
    | _ => s
  else s

/-- The fetch port of R46: the three bytes at p, p + 1 and p + 2. -/
def memoryFetchPort (s : State) (p : Byte) : Byte × Byte × Byte :=
  (s.mem.read p, s.mem.read (p + 1), s.mem.read (p + 2))

/-- The execute stage of R92: at most one register or one memory byte is written. -/
def executeBlock (c : Control) (a b : Byte) (s : State) : State :=
  let rdA := registerFileRead s a
  let q := match c.src2 with
    | .none => 0
    | .registerB => registerFileRead s b
    | .byteB => b
  match c.mem with
  | .writeB => { s with mem := s.mem.write b rdA }
  | .readB => registerFileWrite s true a (s.mem.read b)
  | .none =>
    match c.alu with
    | some f => registerFileWrite s true a (alu f rdA q)
    | none => s

/-- The advance stage of R92, driven by the `inc` column. -/
def advanceBlock (c : Control) (a b : Byte) (s : State) : State :=
  match c.inc with
  | .noAdvance => { s with status := .halted }
  | .three => finish s (pcIncrementer s.pc 3)
  | .zeroToA => finish { s with pc := a } (pcIncrementer a 0)
  | .threeOrSkipB =>
    finish s (pcIncrementer s.pc (if registerFileRead s a = 0 then 3 + b.toNat else 3))
where
  /-- The two outputs of `pc_incrementer` become the new PC or a ProgramRanOff (R87). -/
  finish (s : State) (out : Byte × Bool) : State :=
    if out.2 then { s with status := .faulted .programRanOff } else { s with pc := out.1 }

/-- One cycle of a Running machine through the blocks, in the stage order of R92. -/
def blockCycle (s : State) : State :=
  if 253 < s.pc.toNat then { s with status := .faulted .programRanOff }
  else
    let word := memoryFetchPort s s.pc
    match instructionDecoder word.1 with
    | none => { s with status := .faulted .invalidOpcode }
    | some c =>
      if (c.chkA && registerFileBad word.2.1) || (c.chkB && registerFileBad word.2.2) then
        { s with status := .faulted .invalidRegister }
      else advanceBlock c word.2.1 word.2.2 (executeBlock c word.2.1 word.2.2 s)

end Sys2Proof.Machine
end

