-- ==== Sys2Proof/Machine/Launch.lean ====
section
/-! DEFINITION. The host's side of a launch (70_reset_and_hazards.md): what goes in at the start and what
comes out at the end (R140). The host has no move in between (R142). -/

namespace Sys2Proof.Machine

/-- Start a launch on the host's memory image: the reset state of R38 with the image in memory (R44, R136).
An image that is not exactly 256 bytes long is refused (R139). -/
def launch (image : List Byte) : Host.Outcome State Fault Refusal :=
  if image.length = Config.memorySize then .next { State.reset with mem := Memory.ofBytesFrom 0 image }
  else .refused (.imageLength image.length)

/-- What the host receives when the run ends: the status with its fault kind, the 256 bytes, and the three
registers (R127, R140). -/
structure Result where
  status : Status
  image : List Byte
  pc : Byte
  r1 : Byte
  r2 : Byte
deriving DecidableEq, Repr

/-- What the host can see of a state: nothing while it is Running (R133, R142), the result once the status
is terminal (R41, R140). -/
def result? (s : State) : Option Result :=
  match s.status with
  | .running => none
  | .halted => some ⟨.halted, s.mem.toBytes, s.pc, s.r1, s.r2⟩
  | .faulted kind => some ⟨.faulted kind, s.mem.toBytes, s.pc, s.r1, s.r2⟩

end Sys2Proof.Machine
end

