-- ==== Sys2Proof/Safety.lean ====
section
/-! DEFINITION. Runs and how they end, in the terms claims use (R141, 70_reset_and_hazards.md). A step count
is a count of cycles (R95), never of time (R146). -/

namespace Sys2Proof.Machine

/-- The status is terminal: Halted or Faulted (R32). -/
def State.Terminal (s : State) : Prop := s.status ≠ .running

/-- A good end: the status is Halted (R141). -/
def State.EndedWell (s : State) : Prop := s.status = .halted

/-- A bad end, whatever the kind (R135, R141). -/
def State.EndedBadly (s : State) : Prop := ∃ kind, s.status = .faulted kind

/-- `t` is reached from `s` in exactly `n` cycles. -/
def ReachesIn (n : Nat) (s t : State) : Prop := Sys2Proof.core.run n s = .next t

/-- The run from `s` ends in `t` after `n` cycles, well or badly. -/
def EndsIn (n : Nat) (s t : State) : Prop := ReachesIn n s t ∧ t.Terminal

/-- The run from `s` never ends: after any number of cycles the machine is still Running (R93). -/
def NeverEnds (s : State) : Prop := ∀ n, ∃ t, ReachesIn n s t ∧ t.status = .running

/-- A run from `s` is safe: it never ends badly (R135). -/
def RunsSafely (s : State) : Prop := ∀ n t, ReachesIn n s t → ¬ t.EndedBadly

end Sys2Proof.Machine
end

