-- ==== Sys2Proof/WellFormed.lean ====
section
/-! DEFINITION. Well-formed instructions: every operand byte that its opcode reads as a register index
names a register (R65, R76, 30_encoding.md). An ill-formed instruction still encodes, decodes and runs; it
raises InvalidRegister (R69, R83). -/

namespace Sys2Proof

/-- The operand byte names a register: it is 0, 1 or 2 (R65, R76). -/
def isRegisterIndex (i : Byte) : Bool := decide (i.toNat < Config.registerCount)

/-- Every register-index operand of the instruction names a register: a of Load, Store, Add, Sub, Addi,
Subi and Beqz, and b of Add and Sub (R65). -/
def Instr.wellFormed : Instr → Bool
  | .load a _ => isRegisterIndex a
  | .store a _ => isRegisterIndex a
  | .add a b => isRegisterIndex a && isRegisterIndex b
  | .sub a b => isRegisterIndex a && isRegisterIndex b
  | .addi a _ => isRegisterIndex a
  | .subi a _ => isRegisterIndex a
  | .jump _ _ => true
  | .beqz a _ => isRegisterIndex a
  | .halt _ _ => true

end Sys2Proof
end

