-- ==== Sys2Proof/Certificates/Slice0/Obligations.lean ====
section
/-! DEFINITION. The statements for the provers. Where a clause rests on a decision the spec marks as its own
(D<n> of 92_eei_decisions.md) or on a choice of the model (a log entry), the docstring names it. -/

open Sys2Proof Sys2Proof.Machine

/-! ## Encoding -/

/-- Decoding and encoding agree in both directions, for all nine instructions and every operand byte, the
unused ones among them (30_encoding.md, sections 1 to 3). -/
def Obligations.DecodeInvertsEncode : Prop :=
  ∀ (bytes : List Byte) (i : Instr) (rest : List Byte),
    decode bytes = .ok (i, rest) ↔ bytes = encode i ++ rest

/-- The 24-bit table word is `op * 65536 + a * 256 + b`. That word is the spec's own notation (D12); taking
it for the numbering of opcode_table.json is log entry 3. -/
def Obligations.TableWordDecodesByField : Prop :=
  ∀ (op a b : Byte) (i : Instr),
    decodeTableWord 24 (op.toNat * 65536 + a.toNat * 256 + b.toNat) = some i ↔ encode i = [op, a, b]

/-- One word of each family, written out from the spec's encodings. -/
def Obligations.WrittenOutWordsDecode : Prop :=
  decode [0x01, 0x01, 0x01] = .ok (.load 1 1, []) ∧
  decode [0x02, 0x01, 0x00] = .ok (.store 1 0, []) ∧
  decode [0x04, 0x01, 0x02] = .ok (.sub 1 2, []) ∧
  decode [0x05, 0x01, 0x07] = .ok (.addi 1 7, []) ∧
  decode [0x07, 0x0b, 0x00] = .ok (.jump 11 0, []) ∧
  decode [0x08, 0x01, 0x06] = .ok (.beqz 1 6, []) ∧
  decode [0xff, 0x00, 0x00] = .ok (.halt 0 0, [])

/-- R66: the opcode byte alone selects the instruction, by exact match on all eight bits; there are nine
opcodes, and no other byte is one. -/
def Obligations.OpcodeByteAloneSelects : Prop :=
  ∀ (a b : Byte) (rest : List Byte),
    decode (0x01 :: a :: b :: rest) = .ok (.load a b, rest) ∧
    decode (0x02 :: a :: b :: rest) = .ok (.store a b, rest) ∧
    decode (0x03 :: a :: b :: rest) = .ok (.add a b, rest) ∧
    decode (0x04 :: a :: b :: rest) = .ok (.sub a b, rest) ∧
    decode (0x05 :: a :: b :: rest) = .ok (.addi a b, rest) ∧
    decode (0x06 :: a :: b :: rest) = .ok (.subi a b, rest) ∧
    decode (0x07 :: a :: b :: rest) = .ok (.jump a b, rest) ∧
    decode (0x08 :: a :: b :: rest) = .ok (.beqz a b, rest) ∧
    decode (0xff :: a :: b :: rest) = .ok (.halt a b, rest) ∧
    ∀ op : Byte, op.toNat = 0 ∨ (9 ≤ op.toNat ∧ op.toNat ≤ 0xfe) →
      decode (op :: a :: b :: rest) = .error (.invalidOpcode op)

/-! ## Registers, status and memory -/

/-- Index 0 is the PC, 1 is R1, 2 is R2 (D18, the spec's own decision for 0 and 2), no other byte names a
register, and a register write changes that register and nothing else. -/
def Obligations.RegisterFileReadsAndWrites : Prop :=
  regOfIndex 0 = some .pc ∧ regOfIndex 1 = some .r1 ∧ regOfIndex 2 = some .r2 ∧
  (∀ i : Byte, 2 < i.toNat → regOfIndex i = none) ∧
  (∀ (s : State) (r q : Reg) (v : Byte), (s.setReg r v).reg q = if q = r then v else s.reg q) ∧
  (∀ s : State, s.reg .pc = s.pc ∧ s.reg .r1 = s.r1 ∧ s.reg .r2 = s.r2) ∧
  ∀ (s : State) (r : Reg) (v : Byte),
    (s.setReg r v).mem = s.mem ∧ (s.setReg r v).status = s.status

/-- The numeric form of the status; the numbers are the spec's own (D9). -/
def Obligations.StatusCodesAreDistinct : Prop :=
  statusCode .running = 0 ∧ statusCode .halted = 1 ∧
  (∀ kind, statusCode (.faulted kind) = 2) ∧
  statusFaultCode (.faulted .invalidOpcode) = 1 ∧ statusFaultCode (.faulted .invalidRegister) = 2 ∧
  statusFaultCode (.faulted .programRanOff) = 3 ∧
  (∀ st, statusCode st ≠ 3 ∧ (statusFaultCode st ≠ 0 ↔ statusCode st = 2)) ∧
  ∀ st st' : Status, statusCode st = statusCode st' → statusFaultCode st = statusFaultCode st' → st = st'

/-- A memory read after a write: the byte written at that address, every other byte as before. -/
def Obligations.MemoryReadAfterWrite : Prop :=
  ∀ (m : Memory) (a b v : Byte), (m.write a v).read b = if b = a then v else m.read b

/-- Two memories in canonical form that read the same at all 256 addresses are the same data. -/
def Obligations.CanonicalMemoryIsUnique : Prop :=
  ∀ m n : Memory, m.wf → n.wf → (∀ a : Byte, m.read a = n.read a) → m = n

/-- Every step keeps the canonical form of memory: from every canonical state, not only reachable ones. -/
def Obligations.StepKeepsMemoryCanonical : Prop :=
  ∀ s t : State, s.mem.wf → step s = .next t → t.mem.wf

/-- The canonical form holds at reset and at the start of every launch. -/
def Obligations.ResetAndLaunchMemoryCanonical : Prop :=
  State.reset.mem.wf ∧ ∀ (image : List Byte) (s : State), launch image = .next s → s.mem.wf

/-! ## The arithmetic law -/

/-- R101 and R122: ADD and SUB are the integer sum and difference modulo 256, in each of the four
instructions and for every destination, the PC among them; a wrap is not reported: the status after the
execute stage is what it was, and what follows is the ordinary advance. -/
def Obligations.ArithmeticWrapsAndNeverTraps : Prop :=
  ∀ (s : State) (a b k : Byte) (ra rb : Reg), regOfIndex a = some ra → regOfIndex b = some rb →
    (∃ v : Byte, (v.toNat : Int) = (((s.reg ra).toNat : Int) + (s.reg rb).toNat) % 256 ∧
      exec (.add a b) s = .next (advance 3 (s.setReg ra v))) ∧
    (∃ v : Byte, (v.toNat : Int) = (((s.reg ra).toNat : Int) - (s.reg rb).toNat) % 256 ∧
      exec (.sub a b) s = .next (advance 3 (s.setReg ra v))) ∧
    (∃ v : Byte, (v.toNat : Int) = (((s.reg ra).toNat : Int) + k.toNat) % 256 ∧
      exec (.addi a k) s = .next (advance 3 (s.setReg ra v))) ∧
    (∃ v : Byte, (v.toNat : Int) = (((s.reg ra).toNat : Int) - k.toNat) % 256 ∧
      exec (.subi a k) s = .next (advance 3 (s.setReg ra v))) ∧
    ∀ t : State, (exec (.add a b) s = .next t ∨ exec (.sub a b) s = .next t ∨
        exec (.addi a k) s = .next t ∨ exec (.subi a k) s = .next t) →
      ra ≠ .pc → s.pc.toNat + 3 < 256 → t.status = s.status

/-- Subtracting an immediate is adding its negation modulo 256, in every state and for every index, legal
or not (derived by the spec itself from the arithmetic law). -/
def Obligations.SubiIsAddiOfNegation : Prop :=
  ∀ (s : State) (a k : Byte),
    exec (.subi a k) s = exec (.addi a (BitVec.ofNat 8 (256 - k.toNat))) s

/-! ## What each instruction does -/

/-- Load: with a legal index it completes with `x[a] = memory[b]` and the PC, as written, advanced by 3; if
that runs off, ProgramRanOff with the loaded register kept (D4, D7); an illegal index raises
InvalidRegister with nothing written. -/
def Obligations.LoadReadsMemory : Prop :=
  ∀ (s : State) (a b : Byte),
    (2 < a.toNat → exec (.load a b) s = .next { s with status := .faulted .invalidRegister }) ∧
    ∀ r : Reg, regOfIndex a = some r →
      let t := s.setReg r (s.mem.read b)
      (t.pc.toNat + 3 < 256 → exec (.load a b) s = .next { t with pc := t.pc + 3 }) ∧
      (256 ≤ t.pc.toNat + 3 → exec (.load a b) s = .next { t with status := .faulted .programRanOff })

/-- Store: with a legal index it completes with `memory[b] = x[a]` and the PC advanced by 3; at address 253
and above ProgramRanOff, the byte written anyway (D4, D7); an illegal index raises InvalidRegister with
nothing written. -/
def Obligations.StoreWritesMemory : Prop :=
  ∀ (s : State) (a b : Byte),
    (2 < a.toNat → exec (.store a b) s = .next { s with status := .faulted .invalidRegister }) ∧
    ∀ r : Reg, regOfIndex a = some r →
      let t := { s with mem := s.mem.write b (s.reg r) }
      (s.pc.toNat + 3 < 256 → exec (.store a b) s = .next { t with pc := s.pc + 3 }) ∧
      (256 ≤ s.pc.toNat + 3 → exec (.store a b) s = .next { t with status := .faulted .programRanOff })

/-- Add: with two legal indices it completes with the wrapped sum of the old values in `x[a]` and the PC,
as written, advanced by 3; if that runs off, ProgramRanOff with the sum kept (D4, D7); an illegal a or b
raises InvalidRegister with nothing written (D5 for b). -/
def Obligations.AddWritesWrappedSum : Prop :=
  ∀ (s : State) (a b : Byte),
    (2 < a.toNat ∨ 2 < b.toNat →
      exec (.add a b) s = .next { s with status := .faulted .invalidRegister }) ∧
    ∀ ra rb : Reg, regOfIndex a = some ra → regOfIndex b = some rb →
      let t := s.setReg ra (BitVec.ofNat 8 (((s.reg ra).toNat + (s.reg rb).toNat) % 256))
      (t.pc.toNat + 3 < 256 → exec (.add a b) s = .next { t with pc := t.pc + 3 }) ∧
      (256 ≤ t.pc.toNat + 3 → exec (.add a b) s = .next { t with status := .faulted .programRanOff })

/-- Sub: as Add, with the difference `x[a] - x[b]` modulo 256 (D4, D5, D7). -/
def Obligations.SubWritesWrappedDifference : Prop :=
  ∀ (s : State) (a b : Byte),
    (2 < a.toNat ∨ 2 < b.toNat →
      exec (.sub a b) s = .next { s with status := .faulted .invalidRegister }) ∧
    ∀ ra rb : Reg, regOfIndex a = some ra → regOfIndex b = some rb →
      let t := s.setReg ra (BitVec.ofInt 8 ((((s.reg ra).toNat : Int) - (s.reg rb).toNat) % 256))
      (t.pc.toNat + 3 < 256 → exec (.sub a b) s = .next { t with pc := t.pc + 3 }) ∧
      (256 ≤ t.pc.toNat + 3 → exec (.sub a b) s = .next { t with status := .faulted .programRanOff })

/-- Addi: with a legal index it completes with `x[a] + b` modulo 256 in `x[a]`, b the unsigned immediate,
and the PC, as written, advanced by 3; if that runs off, ProgramRanOff with the sum kept (D4, D7); an
illegal a raises InvalidRegister with nothing written; b is never checked. -/
def Obligations.AddiWritesWrappedSum : Prop :=
  ∀ (s : State) (a b : Byte),
    (2 < a.toNat → exec (.addi a b) s = .next { s with status := .faulted .invalidRegister }) ∧
    ∀ r : Reg, regOfIndex a = some r →
      let t := s.setReg r (BitVec.ofNat 8 (((s.reg r).toNat + b.toNat) % 256))
      (t.pc.toNat + 3 < 256 → exec (.addi a b) s = .next { t with pc := t.pc + 3 }) ∧
      (256 ≤ t.pc.toNat + 3 → exec (.addi a b) s = .next { t with status := .faulted .programRanOff })

/-- Subi: as Addi, with the difference `x[a] - b` modulo 256 (D4, D7). -/
def Obligations.SubiWritesWrappedDifference : Prop :=
  ∀ (s : State) (a b : Byte),
    (2 < a.toNat → exec (.subi a b) s = .next { s with status := .faulted .invalidRegister }) ∧
    ∀ r : Reg, regOfIndex a = some r →
      let t := s.setReg r (BitVec.ofInt 8 ((((s.reg r).toNat : Int) - b.toNat) % 256))
      (t.pc.toNat + 3 < 256 → exec (.subi a b) s = .next { t with pc := t.pc + 3 }) ∧
      (256 ≤ t.pc.toNat + 3 → exec (.subi a b) s = .next { t with status := .faulted .programRanOff })

/-- R109: Jump, with any b, completes in every state with the PC exactly at a and nothing else changed; it
raises nothing and a is not checked. The last clause names the three bytes at a; whether the next cycle
fetches them is the fetch check's matter (obligation JumpThenCycleAtTarget). -/
def Obligations.JumpSetsPc : Prop :=
  ∀ (s : State) (a b : Byte) (rest : List Byte),
    decode (0x07 :: a :: b :: rest) = .ok (.jump a b, rest) ∧
    exec (.jump a b) s = .next { s with pc := a } ∧
    fetchBytes { s with pc := a } = [s.mem.read a, s.mem.read (a + 1), s.mem.read (a + 2)]

/-- Jump and the cycle after it: a Jump completes in every state with the PC at a; a Running machine that
fetches 07 a b does so in its step, whatever b is; the next cycle runs the instruction decoded at a if a is at
most 253, and if a is 254 or 255 it raises ProgramRanOff and writes nothing (D3). -/
def Obligations.JumpThenCycleAtTarget : Prop :=
  ∀ (s : State) (a b : Byte),
    exec (.jump a b) s = .next { s with pc := a } ∧
    (s.status = .running →
      (s.pc.toNat ≤ 253 → s.mem.read s.pc = 0x07 → s.mem.read (s.pc + 1) = a →
        step s = .next { s with pc := a }) ∧
      (a.toNat ≤ 253 → ∀ i : Instr,
        decode [s.mem.read a, s.mem.read (a + 1), s.mem.read (a + 2)] = .ok (i, []) →
          step { s with pc := a } = exec i { s with pc := a }) ∧
      (253 < a.toNat →
        step { s with pc := a } = .next { s with pc := a, status := .faulted .programRanOff }))

/-- Beqz: with a legal index it completes with the PC advanced by `3 + b` if `x[a]` is 0 and by 3 if not,
and nothing else changed; if that runs off, ProgramRanOff with the PC where it was (D4, D7); an illegal a
raises InvalidRegister with nothing written. -/
def Obligations.BeqzSkipsForwardOnZero : Prop :=
  ∀ (s : State) (a b : Byte),
    (2 < a.toNat → exec (.beqz a b) s = .next { s with status := .faulted .invalidRegister }) ∧
    ∀ r : Reg, regOfIndex a = some r →
      let target := s.pc.toNat + (if s.reg r = 0 then 3 + b.toNat else 3)
      (target < 256 → exec (.beqz a b) s = .next { s with pc := BitVec.ofNat 8 target }) ∧
      (256 ≤ target → exec (.beqz a b) s = .next { s with status := .faulted .programRanOff })

/-- R114 and R85: Halt, with any a and b, completes with status Halted and no advance, so that the PC keeps
the Halt's own address; a Running machine that fetches 0xff does this, and no cycle runs after it. -/
def Obligations.HaltStopsWithoutAdvance : Prop :=
  ∀ (s : State) (a b : Byte) (rest : List Byte),
    decode (0xff :: a :: b :: rest) = .ok (.halt a b, rest) ∧
    exec (.halt a b) s = .next { s with status := .halted } ∧
    (s.status = .running → s.pc.toNat ≤ 253 → s.mem.read s.pc = 0xff →
      step s = .next { s with status := .halted }) ∧
    ∀ t : State, step { s with status := .halted } ≠ .next t

/-! ## Frames -/

/-- What Load and the four arithmetic instructions leave unchanged: every register but the PC and the one a
names, every byte of memory, and the status unless the instruction faults. -/
def Obligations.RegisterFormsFrame : Prop :=
  ∀ (s t : State) (a b : Byte) (i : Instr),
    i ∈ [Instr.load a b, .add a b, .sub a b, .addi a b, .subi a b] → exec i s = .next t →
      (∀ q : Reg, q ≠ .pc → regOfIndex a ≠ some q → t.reg q = s.reg q) ∧
      (∀ y : Byte, t.mem.read y = s.mem.read y) ∧
      (t.status = s.status ∨ t.status = .faulted .invalidRegister ∨ t.status = .faulted .programRanOff)

/-- What Store leaves unchanged: R1, R2, every byte of memory outside the one at its effective address, and
the status unless it faults. -/
def Obligations.StoreFrame : Prop :=
  ∀ (s t : State) (a b : Byte), exec (.store a b) s = .next t →
    t.r1 = s.r1 ∧ t.r2 = s.r2 ∧
    (∀ x : Byte, effectiveAddress b = x → ∀ y : Byte, y ≠ x → t.mem.read y = s.mem.read y) ∧
    (t.status = s.status ∨ t.status = .faulted .invalidRegister ∨ t.status = .faulted .programRanOff)

/-- What Jump, Beqz and Halt leave unchanged: R1, R2 and every byte of memory; Jump the status; Beqz the
status unless it faults; Halt the PC. -/
def Obligations.ControlFormsFrame : Prop :=
  ∀ (s t : State) (a b : Byte) (i : Instr),
    i ∈ [Instr.jump a b, .beqz a b, .halt a b] → exec i s = .next t →
      t.r1 = s.r1 ∧ t.r2 = s.r2 ∧ (∀ y : Byte, t.mem.read y = s.mem.read y) ∧
      (i = .jump a b → t.status = s.status) ∧
      (i = .beqz a b → t.status = s.status ∨ t.status = .faulted .invalidRegister ∨
        t.status = .faulted .programRanOff) ∧
      (i = .halt a b → t.pc = s.pc)

/-- A cycle changes at most one byte of memory, and only as a Store of a legal register does: the byte at
the Store's operand b becomes that register's value. -/
def Obligations.OnlyStoreChangesMemory : Prop :=
  ∀ (s t : State) (y : Byte), step s = .next t → t.mem.read y ≠ s.mem.read y →
    s.pc.toNat ≤ 253 ∧ s.mem.read s.pc = 0x02 ∧ s.mem.read (s.pc + 2) = y ∧
    ∃ r : Reg, regOfIndex (s.mem.read (s.pc + 1)) = some r ∧ t.mem.read y = s.reg r

/-! ## The cycle -/

/-- R48: the opcode is at the PC, a at PC + 1 and b at PC + 2. When those bytes decode to an instruction,
the step of a Running machine is that instruction's execution; nothing else is added around it. -/
def Obligations.StepRunsDecodedInstruction : Prop :=
  ∀ s : State, s.status = .running → s.pc.toNat ≤ 253 →
    (∀ i : Instr,
      decode [s.mem.read s.pc, s.mem.read (s.pc + 1), s.mem.read (s.pc + 2)] = .ok (i, []) →
        step s = exec i s) ∧
    ∀ k : Opcode, opcodeOfByte (s.mem.read s.pc) = some k →
      step s = exec (instrOf k (s.mem.read (s.pc + 1)) (s.mem.read (s.pc + 2))) s

/-- R82 and R67: a fetched opcode byte that is 0x00 or 0x09 to 0xfe raises InvalidOpcode and writes nothing. -/
def Obligations.IllegalOpcodeFaults : Prop :=
  ∀ s : State, s.status = .running → s.pc.toNat ≤ 253 →
    ((s.mem.read s.pc).toNat = 0 ∨
      (9 ≤ (s.mem.read s.pc).toNat ∧ (s.mem.read s.pc).toNat ≤ 0xfe)) →
    step s = .next { s with status := .faulted .invalidOpcode }

/-- The fetch check comes first, whatever the memory holds: a PC of 254 or 255 raises ProgramRanOff and
writes nothing (D3, the spec's own decision). -/
def Obligations.FetchCheckComesFirst : Prop :=
  ∀ s : State, s.status = .running → 253 < s.pc.toNat →
    step s = .next { s with status := .faulted .programRanOff }

/-- The register check rejects exactly the instructions that are not well formed: run from a Running state,
an instruction ends with InvalidRegister if and only if an operand it reads as a register index is above 2,
and then nothing but the status has changed (D5 for b of Add and Sub, D7). -/
def Obligations.RegisterFaultIffIllFormed : Prop :=
  ∀ (i : Instr) (s : State), s.status = .running →
    ((∃ t, exec i s = .next t ∧ t.status = .faulted .invalidRegister) ↔ i.wellFormed = false) ∧
    (i.wellFormed = false → exec i s = .next { s with status := .faulted .invalidRegister })

/-- Which status a cycle ends with, exactly, for each of the five statuses, in terms of the state before it:
the fetched bytes, and for the advance the PC after execute and the increment. The priority is D6, the fetch
check D3, the advance D4, the check on b D5, the PC as written D17. -/
def Obligations.StatusAfterStepByFetchedBytes : Prop :=
  ∀ s : State, s.status = .running →
    let op := (s.mem.read s.pc).toNat
    let a := (s.mem.read (s.pc + 1)).toNat
    let b := (s.mem.read (s.pc + 2)).toNat
    let x := fun i : Nat => (if i = 0 then s.pc else if i = 1 then s.r1 else s.r2).toNat
    let checked := (1 ≤ op ∧ op ≤ 6) ∨ op = 8
    let illegal := (checked ∧ 2 < a) ∨ ((op = 3 ∨ op = 4) ∧ 2 < b)
    let written := if op = 1 then (s.mem.read (s.mem.read (s.pc + 2))).toNat
      else if op = 3 then (s.pc.toNat + x b) % 256
      else if op = 4 then (s.pc.toNat + (256 - x b)) % 256
      else if op = 5 then (s.pc.toNat + b) % 256
      else (s.pc.toNat + (256 - b)) % 256
    let pcPost := if a = 0 ∧ (op = 1 ∨ (3 ≤ op ∧ op ≤ 6)) then written else s.pc.toNat
    let inc := if op = 8 ∧ x a = 0 then 3 + b else 3
    ∃ t : State, step s = .next t ∧
      (t.status = .halted ↔ s.pc.toNat ≤ 253 ∧ op = 0xff) ∧
      (t.status = .faulted .invalidOpcode ↔
        s.pc.toNat ≤ 253 ∧ (op = 0 ∨ (9 ≤ op ∧ op ≤ 0xfe))) ∧
      (t.status = .faulted .invalidRegister ↔ s.pc.toNat ≤ 253 ∧ illegal) ∧
      (t.status = .faulted .programRanOff ↔
        253 < s.pc.toNat ∨ (checked ∧ ¬ illegal ∧ 256 ≤ pcPost + inc)) ∧
      (t.status = .running ↔
        s.pc.toNat ≤ 253 ∧ (op = 7 ∨ (checked ∧ ¬ illegal ∧ pcPost + inc < 256)))

/-- The `pc_incrementer` block (D2, the spec's own partition): the low eight bits of the sum and the run-off
output. -/
def Obligations.PcIncrementerSumsAndDetectsRunOff : Prop :=
  ∀ (p : Byte) (inc : Nat), inc ≤ 258 →
    (pcIncrementer p inc).1.toNat = (p.toNat + inc) % 256 ∧
    ((pcIncrementer p inc).2 = true ↔ 256 ≤ p.toNat + inc)

/-- The cycle of functional blocks (D2), driven by the decoder's control table, is the machine's step. -/
def Obligations.BlockCycleIsStep : Prop :=
  ∀ s : State, s.status = .running → step s = .next (blockCycle s)

/-- R41: in a terminal status no cycle runs, the state stays what it was, and the host reads it. -/
def Obligations.TerminalStatusKeepsState : Prop :=
  ∀ s : State, s.status ≠ .running →
    (∀ t : State, step s ≠ .next t) ∧
    (∀ (n : Nat) (t : State), ReachesIn n s t → t = s) ∧
    result? s = some ⟨s.status, s.mem.toBytes, s.pc, s.r1, s.r2⟩

/-- The step is total exactly on the Running states. -/
def Obligations.StepsExactlyWhileRunning : Prop :=
  ∀ s : State, (∃ t, step s = .next t) ↔ s.status = .running

/-! ## Loads, stores and code -/

/-- The round trip: a Store of register r leaves its value at address k, and a Load of k from any later
state in which that byte is unchanged, when it does not fault, puts it in the loaded register; in the PC it
is then advanced by 3. -/
def Obligations.StoreThenLoadReturnsValue : Prop :=
  ∀ (s t : State) (a a2 k : Byte) (r rd : Reg),
    regOfIndex a = some r → regOfIndex a2 = some rd → exec (.store a k) s = .next t →
      t.mem.read k = s.reg r ∧
      ∀ u w : State, u.mem.read k = t.mem.read k → u.status = .running →
        exec (.load a2 k) u = .next w → w.status = .running →
          (rd ≠ .pc → w.reg rd = s.reg r) ∧ (rd = .pc → w.pc.toNat = (s.reg r).toNat + 3)

/-- A Store into code, any value to any address. The running Store is not changed by it, also where it
overwrites one of its own three bytes: the step ends with the byte written and the PC advanced by 3. The next
cycle sees it: it runs the instruction that the three bytes at PC + 3 decode to with the stored value in its
place among them, or raises InvalidOpcode if they decode to none. -/
def Obligations.StoreIntoCodeTakesEffectAtNextFetch : Prop :=
  ∀ (s : State) (r : Reg), s.status = .running → s.pc.toNat ≤ 252 → s.mem.read s.pc = 0x02 →
    regOfIndex (s.mem.read (s.pc + 1)) = some r →
      let k := s.mem.read (s.pc + 2)
      let patched := fun y : Byte => if y = k then s.reg r else s.mem.read y
      ∃ t : State, step s = .next t ∧ t.pc = s.pc + 3 ∧ t.status = .running ∧
        (∀ y : Byte, t.mem.read y = patched y) ∧
        (s.pc.toNat ≤ 250 →
          (∀ i : Instr, decode [patched (s.pc + 3), patched (s.pc + 4), patched (s.pc + 5)] = .ok (i, []) →
            step t = exec i t) ∧
          (∀ e, decode [patched (s.pc + 3), patched (s.pc + 4), patched (s.pc + 5)] = .error e →
            step t = .next { t with status := .faulted .invalidOpcode }))

/-! ## Launch and runs -/

/-- R38: the state at the start of every launch, with the host's bytes in memory. -/
def Obligations.LaunchStartsFromResetState : Prop :=
  ∀ image : List Byte, image.length = 256 →
    ∃ s : State, launch image = .next s ∧ s.pc = 8 ∧ s.r1 = 0 ∧ s.r2 = 0 ∧ s.status = .running ∧
      ∀ (k : Nat) (h : k < image.length), s.mem.read (BitVec.ofNat 8 k) = image[k]

/-- A launch with an image of any other length is refused (D10, the spec's own decision). -/
def Obligations.LaunchRefusesOtherLengths : Prop :=
  ∀ image : List Byte, image.length ≠ 256 → launch image = .refused (.imageLength image.length)

/-- The bytes the host reads are the bytes it supplied, as long as none was stored to. -/
def Obligations.HostReadsBackItsImage : Prop :=
  ∀ (image : List Byte) (s : State), launch image = .next s → s.mem.toBytes = image

/-- The first cycle of a launch runs the instruction at addresses 8, 9 and 10 of the image. -/
def Obligations.FirstCycleRunsInstructionAtEight : Prop :=
  ∀ (image : List Byte) (s : State) (i : Instr), launch image = .next s →
    decode ((image.drop 8).take 3) = .ok (i, []) → step s = exec i s

/-- A table word placed where the next cycle fetches is what that cycle runs, and nothing else but what the
fetch needs has changed (the model's own interface, log entry 4). -/
def Obligations.PlacedWordRunsNext : Prop :=
  ∀ (s : State) (w : Nat) (i : Instr), decodeTableWord 24 w = some i →
    let t := s.withFetchWord 24 w
    step t = exec i t ∧ t.r1 = s.r1 ∧ t.r2 = s.r2 ∧
    (s.status = .running → t.status = s.status) ∧ (s.pc.toNat ≤ 253 → t.pc = s.pc) ∧
    ∀ y : Byte, y ≠ t.pc → y ≠ t.pc + 1 → y ≠ t.pc + 2 → t.mem.read y = s.mem.read y

/-- A run ends in at most one way: the number of cycles and the final state are determined. That no step is
counted in a terminal status is log entry 1. -/
def Obligations.RunEndsInOneWay : Prop :=
  ∀ (s t u : State) (n m : Nat), EndsIn n s t → EndsIn m s u → n = m ∧ t = u

/-- Two loops of one instruction never end: a Jump to its own address, and `subi pc, 3` at address 3 or
above; the state after any number of cycles is the same state, Running. -/
def Obligations.SelfLoopsNeverEnd : Prop :=
  ∀ s : State, s.status = .running → s.pc.toNat ≤ 253 →
    ((s.mem.read s.pc = 0x07 ∧ s.mem.read (s.pc + 1) = s.pc) ∨
     (s.mem.read s.pc = 0x06 ∧ s.mem.read (s.pc + 1) = 0 ∧ s.mem.read (s.pc + 2) = 3 ∧
      3 ≤ s.pc.toNat)) →
    NeverEnds s ∧ ∀ n : Nat, ReachesIn n s s

/-! ## Unused bytes, the written form, idioms -/

/-- Any other value in an unused byte has the same meaning (D16): overwriting b of the Jump at the PC, or a and b
of the Halt at the PC, with any bytes changes what the cycle does in nothing but those bytes themselves. -/
def Obligations.UnusedBytesHaveNoMeaning : Prop :=
  ∀ (s : State) (v w : Byte), s.status = .running → s.pc.toNat ≤ 253 →
    (s.mem.read s.pc = 0x07 →
      ∃ t : State, step s = .next t ∧ step (s.store (s.pc + 2) v) = .next (t.store (s.pc + 2) v)) ∧
    (s.mem.read s.pc = 0xff →
      ∃ t : State, step s = .next t ∧
        step ((s.store (s.pc + 1) v).store (s.pc + 2) w) =
          .next ((t.store (s.pc + 1) v).store (s.pc + 2) w))

/-- The written form (D13, the spec's own): every instruction, illegal indices and nonzero unused bytes among
them, is written by a line that stands for exactly its encoding, and every line but `.byte` stands for one
instruction. -/
def Obligations.AssemblyLinesAreInstructions : Prop :=
  (∀ i : Instr, asmBytes (asmLineOf i) = encode i) ∧
  (∀ line : AsmLine, (∀ n, line ≠ .byte n) →
    ∃ i : Instr, ∀ rest, decode (asmBytes line ++ rest) = .ok (i, rest)) ∧
  (∀ n : Numeral, asmBytes (.jump n) = asmBytes (.jumpWith n (.decimal 0))) ∧
  asmBytes .halt = asmBytes (.haltWith (.decimal 0) (.decimal 0)) ∧
  ∀ i : Byte, regNameIndex (.raw i) = i ∧ regNameIndex (regNameOfIndex i) = i

/-- The idioms the spec derives: no-op, clear register, skip the next instruction if zero, relative backward
jump by d (for d + 3 at most the PC; beyond that the register arithmetic wraps), indirect jump through memory
byte k. Each line decodes to its instruction, and where the advance
stays in the buffer (D4) it has the effect named. -/
def Obligations.IdiomsHaveTheirEffect : Prop :=
  ∀ s : State,
    (s.pc.toNat + 3 < 256 →
      decode (asmBytes (.addi .r1 (.decimal 0))) = .ok (.addi 1 0, []) ∧
      exec (.addi 1 0) s = .next { s with pc := s.pc + 3 }) ∧
    (∀ (a : Byte) (r : Reg), regOfIndex a = some r → (s.setReg r 0).pc.toNat + 3 < 256 →
      decode (asmBytes (.sub (.raw a) (.raw a))) = .ok (.sub a a, []) ∧
      exec (.sub a a) s = .next { s.setReg r 0 with pc := (s.setReg r 0).pc + 3 }) ∧
    (∀ (a : Byte) (r : Reg), regOfIndex a = some r → s.reg r = 0 → s.pc.toNat + 6 < 256 →
      decode (asmBytes (.beqz (.raw a) (.decimal 3))) = .ok (.beqz a 3, []) ∧
      exec (.beqz a 3) s = .next { s with pc := s.pc + 6 }) ∧
    (∀ d : Byte, d.toNat + 3 ≤ s.pc.toNat →
      decode (asmBytes (.subi .pc (.decimal (d + 3)))) = .ok (.subi 0 (d + 3), []) ∧
      exec (.subi 0 (d + 3)) s = .next { s with pc := s.pc - d }) ∧
    (∀ k : Byte, (s.mem.read k).toNat + 3 < 256 →
      decode (asmBytes (.load .pc (.decimal k))) = .ok (.load 0 k, []) ∧
      exec (.load 0 k) s = .next { s with pc := s.mem.read k + 3 })
end

