-- ==== Sys2Proof/Laws/Memory.lean ====
section
/-! SUPPORT. The laws of memory: a read after a write, and that every operation keeps the canonical form. -/

namespace Sys2Proof.Machine

theorem readAt_eraseAt (m : Memory) (a b : Nat) :
    (m.eraseAt a).readAt b = if b = a then Config.unlistedByte else m.readAt b := by
  induction m with
  | nil => simp [Memory.eraseAt, Memory.readAt]
  | cons c rest ih =>
    by_cases hc : c.1 = a
    · have he : Memory.eraseAt (c :: rest) a = Memory.eraseAt rest a := by
        simp [Memory.eraseAt, hc]
      rw [he, ih]
      by_cases hb : b = a
      · simp [hb]
      · simp [Memory.readAt, hc, hb, Ne.symm hb]
    · have he : Memory.eraseAt (c :: rest) a = c :: Memory.eraseAt rest a := by
        simp [Memory.eraseAt, hc]
      rw [he]
      simp only [Memory.readAt, ih]
      by_cases hcb : c.1 = b
      · simp [hcb, show b ≠ a from hcb ▸ hc]
      · simp [hcb]

/-- An inserted entry is read back if no entry has its address. -/
theorem readAt_insertAt (m : Memory) (a b : Nat) (v : Byte) (hm : ∀ c ∈ m, c.1 ≠ a) :
    (m.insertAt a v).readAt b = if b = a then v else m.readAt b := by
  induction m with
  | nil => simp [Memory.insertAt, Memory.readAt, eq_comm]
  | cons c rest ih =>
    have hc : c.1 ≠ a := hm c (by simp)
    have ih := ih (fun d hd => hm d (by simp [hd]))
    unfold Memory.insertAt
    split
    · by_cases hb : b = a
      · simp [Memory.readAt, hb]
      · simp [Memory.readAt, hb, Ne.symm hb]
    · by_cases hb : b = a
      · subst hb; simp [Memory.readAt, hc, ih]
      · simp [Memory.readAt, ih, hb]

theorem readAt_writeAt (m : Memory) (a b : Nat) (v : Byte) :
    (m.writeAt a v).readAt b = if b = a then v else m.readAt b := by
  unfold Memory.writeAt
  split
  · next h => rw [readAt_eraseAt, h]
  · rw [readAt_insertAt _ _ _ _ (by simp [Memory.eraseAt]), readAt_eraseAt]
    split <;> rfl

@[simp] theorem read_write_self (m : Memory) (a v : Byte) : (m.write a v).read a = v := by
  simp [Memory.read, Memory.write, readAt_writeAt]

theorem read_write_of_ne (m : Memory) {a b : Byte} (v : Byte) (h : b ≠ a) :
    (m.write a v).read b = m.read b := by
  simp [Memory.read, Memory.write, readAt_writeAt, BitVec.toNat_inj, h]

theorem wf_nil : Memory.wf [] := by simp [Memory.wf]

theorem wf_eraseAt {m : Memory} (h : m.wf) (a : Nat) : (m.eraseAt a).wf :=
  ⟨h.1.filter _, fun c hc => h.2 c (List.mem_filter.mp hc).1⟩

theorem mem_insertAt {m : Memory} {a : Nat} {v : Byte} {c : Host.Cell} :
    c ∈ m.insertAt a v ↔ c = (a, v) ∨ c ∈ m := by
  induction m with
  | nil => simp [Memory.insertAt]
  | cons d rest ih =>
    unfold Memory.insertAt
    split
    · simp
    · simp [ih, or_left_comm]

theorem wf_insertAt {m : Memory} (h : m.wf) {a : Nat} {v : Byte} (ha : a < Config.memorySize)
    (hv : v ≠ Config.unlistedByte) (hm : ∀ c ∈ m, c.1 ≠ a) : (m.insertAt a v).wf := by
  refine ⟨?_, fun c hc => ?_⟩
  · induction m with
    | nil => simp [Memory.insertAt]
    | cons d rest ih =>
      obtain ⟨hd, hrest⟩ := List.pairwise_cons.mp h.1
      have hda : d.1 ≠ a := hm d (by simp)
      have ih := ih ⟨hrest, fun c hc => h.2 c (by simp [hc])⟩ (fun c hc => hm c (by simp [hc]))
      unfold Memory.insertAt
      split
      · next hlt =>
        refine List.pairwise_cons.mpr ⟨fun c hc => ?_, h.1⟩
        rcases List.mem_cons.mp hc with rfl | hc
        · exact hlt
        · exact hlt.trans (hd c hc)
      · next hge =>
        refine List.pairwise_cons.mpr ⟨fun c hc => ?_, ih⟩
        rcases mem_insertAt.mp hc with rfl | hc
        · show d.1 < a
          omega
        · exact hd c hc
  · rcases mem_insertAt.mp hc with rfl | hc
    · exact ⟨ha, hv⟩
    · exact h.2 c hc

theorem wf_writeAt {m : Memory} (h : m.wf) {a : Nat} (ha : a < Config.memorySize) (v : Byte) :
    (m.writeAt a v).wf := by
  unfold Memory.writeAt
  split
  · exact wf_eraseAt h a
  · next hv => exact wf_insertAt (wf_eraseAt h a) ha hv (by simp [Memory.eraseAt])

/-- Every store keeps the canonical form. -/
theorem wf_write {m : Memory} (h : m.wf) (a v : Byte) : (m.write a v).wf :=
  wf_writeAt h a.isLt v

theorem le_of_mem_ofBytesFrom {first : Nat} {bytes : List Byte} {c : Host.Cell}
    (hc : c ∈ Memory.ofBytesFrom first bytes) :
    first ≤ c.1 ∧ c.1 < first + bytes.length ∧ c.2 ≠ Config.unlistedByte := by
  induction bytes generalizing first with
  | nil => simp [Memory.ofBytesFrom] at hc
  | cons v rest ih =>
    unfold Memory.ofBytesFrom at hc
    split at hc
    · have := ih hc
      simp only [List.length_cons]
      exact ⟨by omega, by omega, this.2.2⟩
    · next hv =>
      rcases List.mem_cons.mp hc with rfl | hc
      · exact ⟨le_rfl, by simp, hv⟩
      · have := ih hc
        simp only [List.length_cons]
        exact ⟨by omega, by omega, this.2.2⟩

theorem pairwise_ofBytesFrom (first : Nat) (bytes : List Byte) :
    (Memory.ofBytesFrom first bytes).Pairwise (fun c d => c.1 < d.1) := by
  induction bytes generalizing first with
  | nil => simp [Memory.ofBytesFrom]
  | cons v rest ih =>
    unfold Memory.ofBytesFrom
    split
    · exact ih _
    · exact List.pairwise_cons.mpr ⟨fun c hc => (le_of_mem_ofBytesFrom hc).1, ih _⟩

/-- The memory of an image that fits is in canonical form. -/
theorem wf_ofBytesFrom {bytes : List Byte} (h : bytes.length ≤ Config.memorySize) :
    (Memory.ofBytesFrom 0 bytes).wf :=
  ⟨pairwise_ofBytesFrom 0 bytes, fun _ hc =>
    have := le_of_mem_ofBytesFrom hc
    ⟨by omega, this.2.2⟩⟩

/-- An address below the first byte placed is unlisted. -/
theorem readAt_ofBytesFrom_of_lt (first a : Nat) (bytes : List Byte) (h : a < first) :
    (Memory.ofBytesFrom first bytes).readAt a = Config.unlistedByte := by
  induction bytes generalizing first with
  | nil => rfl
  | cons v rest ih =>
    unfold Memory.ofBytesFrom
    split
    · exact ih _ (by omega)
    · simp only [Memory.readAt]
      rw [if_neg (by omega), ih _ (by omega)]

/-- A memory made of an image reads as the image. -/
theorem readAt_ofBytesFrom (first k : Nat) (bytes : List Byte) (h : k < bytes.length) :
    (Memory.ofBytesFrom first bytes).readAt (first + k) = bytes[k] := by
  induction bytes generalizing first k with
  | nil => simp at h
  | cons v rest ih =>
    unfold Memory.ofBytesFrom
    cases k with
    | zero =>
      split
      · next hv => rw [readAt_ofBytesFrom_of_lt _ _ _ (by omega)]; simp [hv]
      · simp [Memory.readAt]
    | succ k =>
      have hk : k < rest.length := by simpa using h
      have ih := ih (first + 1) k hk
      rw [show first + 1 + k = first + (k + 1) by omega] at ih
      split
      · simpa using ih
      · simp only [Memory.readAt]
        rw [if_neg (by omega)]
        simpa using ih

theorem toBytes_length (m : Memory) : m.toBytes.length = Config.memorySize := by
  simp [Memory.toBytes]

end Sys2Proof.Machine
end

