-- ==== Sys2Proof/Laws/State.lean ====
section
/-! SUPPORT. One lemma per field per update of the state, true by rfl, so that no later proof unfolds a
record update. -/

namespace Sys2Proof.Machine

variable (s : State) (r q : Reg) (v a : Byte) (kind : FaultKind)

@[simp] theorem setReg_pc_pc : (s.setReg .pc v).pc = v := rfl
@[simp] theorem setReg_pc_r1 : (s.setReg .pc v).r1 = s.r1 := rfl
@[simp] theorem setReg_pc_r2 : (s.setReg .pc v).r2 = s.r2 := rfl
@[simp] theorem setReg_r1_pc : (s.setReg .r1 v).pc = s.pc := rfl
@[simp] theorem setReg_r1_r1 : (s.setReg .r1 v).r1 = v := rfl
@[simp] theorem setReg_r1_r2 : (s.setReg .r1 v).r2 = s.r2 := rfl
@[simp] theorem setReg_r2_pc : (s.setReg .r2 v).pc = s.pc := rfl
@[simp] theorem setReg_r2_r1 : (s.setReg .r2 v).r1 = s.r1 := rfl
@[simp] theorem setReg_r2_r2 : (s.setReg .r2 v).r2 = v := rfl
@[simp] theorem setReg_mem : (s.setReg r v).mem = s.mem := by cases r <;> rfl
@[simp] theorem setReg_status : (s.setReg r v).status = s.status := by cases r <;> rfl

@[simp] theorem reg_pc : s.reg .pc = s.pc := rfl
@[simp] theorem reg_r1 : s.reg .r1 = s.r1 := rfl
@[simp] theorem reg_r2 : s.reg .r2 = s.r2 := rfl
@[simp] theorem reg_setReg_self : (s.setReg r v).reg r = v := by cases r <;> rfl

theorem reg_setReg_of_ne (h : q ≠ r) : (s.setReg r v).reg q = s.reg q := by
  cases r <;> cases q <;> first | rfl | exact absurd rfl h

@[simp] theorem store_pc : (s.store a v).pc = s.pc := rfl
@[simp] theorem store_r1 : (s.store a v).r1 = s.r1 := rfl
@[simp] theorem store_r2 : (s.store a v).r2 = s.r2 := rfl
@[simp] theorem store_status : (s.store a v).status = s.status := rfl
@[simp] theorem store_mem : (s.store a v).mem = s.mem.write a v := rfl
@[simp] theorem store_reg : (s.store a v).reg r = s.reg r := by cases r <;> rfl

@[simp] theorem raiseFault_pc : (raiseFault kind s).pc = s.pc := rfl
@[simp] theorem raiseFault_r1 : (raiseFault kind s).r1 = s.r1 := rfl
@[simp] theorem raiseFault_r2 : (raiseFault kind s).r2 = s.r2 := rfl
@[simp] theorem raiseFault_mem : (raiseFault kind s).mem = s.mem := rfl
@[simp] theorem raiseFault_status : (raiseFault kind s).status = .faulted kind := rfl
@[simp] theorem raiseFault_reg : (raiseFault kind s).reg r = s.reg r := by cases r <;> rfl

end Sys2Proof.Machine
end

