-- ==== Sys2Proof/Laws/Ops.lean ====
section
/-! SUPPORT. For each shared operation, what it can do, said once. -/

namespace Sys2Proof.Machine

/-- The advance that stays in the buffer (R88). -/
theorem advance_of_lt {inc : Nat} {s : State} (h : s.pc.toNat + inc < 256) :
    advance inc s = { s with pc := BitVec.ofNat 8 (s.pc.toNat + inc) } := by
  have : ¬ 256 ≤ s.pc.toNat + inc := by omega
  simp [advance, pcIncrementer, Config.memorySize, this]

/-- The advance that runs off (R88, R90). -/
theorem advance_of_le {inc : Nat} {s : State} (h : 256 ≤ s.pc.toNat + inc) :
    advance inc s = raiseFault .programRanOff s := by
  simp [advance, pcIncrementer, Config.memorySize, h]

/-- Everything the advance can do. -/
theorem advance_cases (inc : Nat) (s : State) :
    (s.pc.toNat + inc < 256 ∧ advance inc s = { s with pc := BitVec.ofNat 8 (s.pc.toNat + inc) }) ∨
    (256 ≤ s.pc.toNat + inc ∧ advance inc s = raiseFault .programRanOff s) := by
  rcases Nat.lt_or_ge (s.pc.toNat + inc) 256 with h | h
  · exact .inl ⟨h, advance_of_lt h⟩
  · exact .inr ⟨h, advance_of_le h⟩

@[simp] theorem advance_r1 (inc : Nat) (s : State) : (advance inc s).r1 = s.r1 := by
  rcases advance_cases inc s with ⟨-, h⟩ | ⟨-, h⟩ <;> simp [h]

@[simp] theorem advance_r2 (inc : Nat) (s : State) : (advance inc s).r2 = s.r2 := by
  rcases advance_cases inc s with ⟨-, h⟩ | ⟨-, h⟩ <;> simp [h]

@[simp] theorem advance_mem (inc : Nat) (s : State) : (advance inc s).mem = s.mem := by
  rcases advance_cases inc s with ⟨-, h⟩ | ⟨-, h⟩ <;> simp [h]

theorem withRegister_of_some {i : Byte} {r : Reg} (h : regOfIndex i = some r) (s : State)
    (k : Reg → State) : withRegister i s k = k r := by
  simp [withRegister, h]

theorem withRegister_of_none {i : Byte} (h : regOfIndex i = none) (s : State) (k : Reg → State) :
    withRegister i s k = raiseFault .invalidRegister s := by
  simp [withRegister, h]

/-- The register check raises nothing exactly for the indices 0, 1 and 2 (R26). -/
theorem regOfIndex_isSome : ∀ i : Byte, (regOfIndex i).isSome = isRegisterIndex i := by decide

theorem regOfIndex_eq_none_of_lt {i : Byte} (h : 2 < i.toNat) : regOfIndex i = none := by
  have hi := regOfIndex_isSome i
  have hf : isRegisterIndex i = false := decide_eq_false (by simp only [Config.registerCount]; omega)
  rw [hf] at hi
  simpa using hi

/-- The sum of two bytes as a number (R101). -/
theorem alu_add_toNat (p q : Byte) : (alu .add p q).toNat = (p.toNat + q.toNat) % 256 := by
  simp only [alu, BitVec.toNat_ofInt]
  omega

/-- The difference of two bytes as a number, the modulus never negative (R101). -/
theorem alu_sub_toNat (p q : Byte) : (alu .sub p q).toNat = (p.toNat + (256 - q.toNat)) % 256 := by
  have := q.isLt
  simp only [alu, BitVec.toNat_ofInt]
  omega

end Sys2Proof.Machine
end

