-- ==== Sys2Proof/Laws/Exec.lean ====
section
/-! SUPPORT. The shared forms the meanings are written with, and what executing any instruction can do to
memory, said once. -/

namespace Sys2Proof.Machine

theorem aluRegister_of_some {a b : Byte} {ra rb : Reg} (ha : regOfIndex a = some ra)
    (hb : regOfIndex b = some rb) (f : AluOp) (s : State) :
    aluRegister f a b s = advance 3 (s.setReg ra (alu f (s.reg ra) (s.reg rb))) := by
  rw [aluRegister, withRegister_of_some ha, withRegister_of_some hb]
  rfl

/-- An illegal index in either operand raises InvalidRegister (R83, R91). -/
theorem aluRegister_of_none {a b : Byte} (h : regOfIndex a = none ∨ regOfIndex b = none) (f : AluOp)
    (s : State) : aluRegister f a b s = raiseFault .invalidRegister s := by
  unfold aluRegister
  cases ha : regOfIndex a with
  | none => exact withRegister_of_none ha s _
  | some ra =>
    rw [withRegister_of_some ha, withRegister_of_none (h.resolve_left (by simp [ha]))]

theorem aluImmediate_of_some {a : Byte} {r : Reg} (ha : regOfIndex a = some r) (f : AluOp) (b : Byte)
    (s : State) : aluImmediate f a b s = advance 3 (s.setReg r (alu f (s.reg r) b)) := by
  rw [aluImmediate, withRegister_of_some ha]
  rfl

theorem aluImmediate_of_none {a : Byte} (ha : regOfIndex a = none) (f : AluOp) (b : Byte) (s : State) :
    aluImmediate f a b s = raiseFault .invalidRegister s :=
  withRegister_of_none ha s _

@[simp] theorem aluRegister_mem (f : AluOp) (a b : Byte) (s : State) : (aluRegister f a b s).mem = s.mem := by
  cases ha : regOfIndex a with
  | none => rw [aluRegister_of_none (.inl ha)]; rfl
  | some ra =>
    cases hb : regOfIndex b with
    | none => rw [aluRegister_of_none (.inr hb)]; rfl
    | some rb => rw [aluRegister_of_some ha hb]; simp

@[simp] theorem aluImmediate_mem (f : AluOp) (a b : Byte) (s : State) :
    (aluImmediate f a b s).mem = s.mem := by
  cases ha : regOfIndex a with
  | none => rw [aluImmediate_of_none ha]; rfl
  | some r => rw [aluImmediate_of_some ha]; simp

/-- The increment of Beqz (R111). -/
theorem branchIncrement_eq (v b : Byte) :
    branchIncrement v b = if v = 0 then 3 + b.toNat else 3 := by
  have : v.toNat = 0 ↔ v = 0 := by simp [← BitVec.toNat_inj]
  simp [branchIncrement, isZero, forwardOffset, Config.defaultIncrement, this]

/-- Everything an instruction can do to memory: nothing, or the one write of a Store of a legal register. -/
theorem exec_mem_cases {i : Instr} {s t : State} (h : exec i s = .next t) :
    t.mem = s.mem ∨ ∃ a b r, i = .store a b ∧ regOfIndex a = some r ∧
      t.mem = s.mem.write (effectiveAddress b) (s.reg r) := by
  cases i with
  | load a b =>
    cases h
    cases ha : regOfIndex a with
    | none => rw [withRegister_of_none ha]; exact .inl rfl
    | some r => rw [withRegister_of_some ha]; simp
  | store a b =>
    cases h
    cases ha : regOfIndex a with
    | none => rw [withRegister_of_none ha]; exact .inl rfl
    | some r => rw [withRegister_of_some ha]; exact .inr ⟨a, b, r, rfl, ha, by simp⟩
  | add a b => cases h; simp
  | sub a b => cases h; simp
  | addi a b => cases h; simp
  | subi a b => cases h; simp
  | jump a b => cases h; simp
  | beqz a b =>
    cases h
    cases ha : regOfIndex a with
    | none => rw [withRegister_of_none ha]; exact .inl rfl
    | some r => rw [withRegister_of_some ha]; simp
  | halt a b => cases h; exact .inl rfl

end Sys2Proof.Machine
end

