-- ==== Sys2Proof/Laws/PerInstr.lean ====
section
/-! SUPPORT. Facts about every instruction as syntax, one lemma per constructor: the encoding is three
bytes long and decodes to the instruction it was made of (R60, R61, R66). -/

namespace Sys2Proof.Laws.RoundTrip

/-- Three bytes, read back whole whatever follows them. -/
def Statement (i : Instr) : Prop :=
  (encode i).length = Config.instructionLength ∧ ∀ rest, decode (encode i ++ rest) = .ok (i, rest)

theorem load (a b : Byte) : Statement (.load a b) := ⟨rfl, fun _ => rfl⟩
theorem store (a b : Byte) : Statement (.store a b) := ⟨rfl, fun _ => rfl⟩
theorem add (a b : Byte) : Statement (.add a b) := ⟨rfl, fun _ => rfl⟩
theorem sub (a b : Byte) : Statement (.sub a b) := ⟨rfl, fun _ => rfl⟩
theorem addi (a b : Byte) : Statement (.addi a b) := ⟨rfl, fun _ => rfl⟩
theorem subi (a b : Byte) : Statement (.subi a b) := ⟨rfl, fun _ => rfl⟩
theorem jump (a b : Byte) : Statement (.jump a b) := ⟨rfl, fun _ => rfl⟩
theorem beqz (a b : Byte) : Statement (.beqz a b) := ⟨rfl, fun _ => rfl⟩
theorem halt (a b : Byte) : Statement (.halt a b) := ⟨rfl, fun _ => rfl⟩

end Sys2Proof.Laws.RoundTrip
end

