-- ==== Sys2Proof/Laws/Step.lean ====
section
/-! SUPPORT. What one step of the machine can do, said once, and the small lemmas of fetch. -/

namespace Sys2Proof.Machine

theorem fetchDecode_of_lt {s : State} (h : 253 < s.pc.toNat) : fetchDecode s = .error .programRanOff := by
  simp [fetchDecode, lastFetch, Config.memorySize, Config.instructionLength, h]

theorem fetchDecode_of_ok {s : State} {i : Instr} {rest : List Byte} (h : s.pc.toNat ≤ 253)
    (hd : decode (fetchBytes s) = .ok (i, rest)) : fetchDecode s = .ok i := by
  have : ¬ 253 < s.pc.toNat := by omega
  simp [fetchDecode, lastFetch, Config.memorySize, Config.instructionLength, this, hd]

theorem fetchDecode_of_error {s : State} {e : DecodeError} (h : s.pc.toNat ≤ 253)
    (hd : decode (fetchBytes s) = .error e) : fetchDecode s = .error .invalidOpcode := by
  have : ¬ 253 < s.pc.toNat := by omega
  simp [fetchDecode, lastFetch, Config.memorySize, Config.instructionLength, this, hd]

/-- Every instruction runs: `exec` answers a next state on every instruction and every state. -/
theorem exec_answers (i : Instr) (s : State) : ∃ t, exec i s = .next t := by
  cases i <;> exact ⟨_, rfl⟩

/-- Inversion of a step: the machine was Running, and either the cycle raised a fault before execute and
changed nothing else, or it ran the instruction it fetched. -/
theorem step_cases {s t : State} (h : step s = .next t) :
    s.status = .running ∧
      ((∃ kind, fetchDecode s = .error kind ∧ t = raiseFault kind s) ∨
       ∃ i, fetchDecode s = .ok i ∧ exec i s = .next t) := by
  unfold step at h
  cases hs : s.status <;> simp only [hs, stopReason] at h
  · refine ⟨rfl, ?_⟩
    cases hf : fetchDecode s <;> rw [hf] at h
    · exact .inl ⟨_, rfl, by simpa using h.symm⟩
    · exact .inr ⟨_, rfl, h⟩
  · cases h
  · cases h

theorem step_of_error {s : State} {kind : FaultKind} (hs : s.status = .running)
    (hf : fetchDecode s = .error kind) : step s = .next (raiseFault kind s) := by
  simp [step, hs, stopReason, hf]

theorem step_of_ok {s : State} {i : Instr} (hs : s.status = .running) (hf : fetchDecode s = .ok i) :
    step s = exec i s := by
  simp [step, hs, stopReason, hf]

end Sys2Proof.Machine
end

