-- ==== Sys2Proof/Laws/Run.lean ====
section
/-! SUPPORT. Runs, one cycle at a time. -/

namespace Sys2Proof.Machine

theorem run_succ_iff (M : Host.Core) (n : Nat) (s t : M.State) :
    M.run (n + 1) s = .next t ↔ ∃ u, M.step s = .next u ∧ M.run n u = .next t := by
  rw [Host.Core.run]
  cases M.step s <;> simp

theorem reachesIn_zero_iff {s t : State} : ReachesIn 0 s t ↔ s = t :=
  ⟨fun h => by cases h; rfl, fun h => by rw [h]; rfl⟩

/-- The first cycle of a run, taken off. -/
theorem reachesIn_succ_iff {n : Nat} {s t : State} :
    ReachesIn (n + 1) s t ↔ ∃ u, step s = .next u ∧ ReachesIn n u t :=
  run_succ_iff Sys2Proof.core n s t

end Sys2Proof.Machine
end

