-- ==== Sys2Proof/Tests/Slice0.lean ====
section
/-! SUPPORT. Small tests of single steps (expected results from 95_test_vectors.md, the vector named in each
docstring), decoding of words written out from 30_encoding.md, the well-formedness smoke test, and for every
obligation with hypotheses a concrete state and operands that meet them. -/

namespace Sys2Proof.Tests

open Sys2Proof Sys2Proof.Machine

/-- A Running machine with the three bytes of one instruction at its PC and some bytes elsewhere. -/
def machineAt (pc r1 r2 op a b : Byte) (cells : List (Byte × Byte)) : State :=
  placeBytes pc [op, a, b]
    (cells.foldl (fun s c => s.store c.1 c.2) ⟨pc, r1, r2, .running, []⟩)

/-- The registers and status after one step, as the vectors list them. -/
def stepView (s : State) : Option (Byte × Byte × Byte × Status) :=
  match step s with
  | .next t => some (t.pc, t.r1, t.r2, t.status)
  | .fault _ => none
  | .refused _ => none

/-- One byte of memory after one step. -/
def stepByte (s : State) (addr : Byte) : Option Byte :=
  match step s with
  | .next t => some (t.mem.read addr)
  | .fault _ => none
  | .refused _ => none

/-! ## Decoding: words written out from R61, R63 and R66 -/

theorem test_decode_load : decode [0b00000001, 0b00000001, 0b11111110] = .ok (.load 1 254, []) := rfl
theorem test_decode_store : decode [0b00000010, 0b00000010, 0b00000101] = .ok (.store 2 5, []) := rfl
theorem test_decode_add : decode [0b00000011, 0b00000001, 0b00000010] = .ok (.add 1 2, []) := rfl
theorem test_decode_sub : decode [0b00000100, 0b00000010, 0b00000001] = .ok (.sub 2 1, []) := rfl
theorem test_decode_addi : decode [0b00000101, 0b00000001, 0b00000111] = .ok (.addi 1 7, []) := rfl
theorem test_decode_subi : decode [0b00000110, 0b00000000, 0b00001100] = .ok (.subi 0 12, []) := rfl
theorem test_decode_jump : decode [0b00000111, 0b00001011, 0b10011001] = .ok (.jump 11 153, []) := rfl
theorem test_decode_beqz : decode [0b00001000, 0b00000001, 0b00000110] = .ok (.beqz 1 6, []) := rfl
theorem test_decode_halt : decode [0b11111111, 0b00000101, 0b00001001] = .ok (.halt 5 9, []) := rfl

theorem test_decode_rejects_zero : decode [0x00, 0x00, 0x00] = .error (.invalidOpcode 0x00) := rfl
theorem test_decode_rejects_nine : decode [0x09, 0x00, 0x00] = .error (.invalidOpcode 0x09) := rfl
theorem test_decode_rejects_fe : decode [0xfe, 0x01, 0x01] = .error (.invalidOpcode 0xfe) := rfl
theorem test_decode_rejects_short : decode [0xff, 0x00] = .error .truncated := rfl

/-- The table's match words (opcode_table.json): the operands are zero. -/
theorem test_table_words : [0x010000, 0x020000, 0x030000, 0x040000, 0x050000, 0x060000, 0x070000, 0x080000,
    0xff0000].map (decodeTableWord 24) =
    [some (.load 0 0), some (.store 0 0), some (.add 0 0), some (.sub 0 0), some (.addi 0 0),
      some (.subi 0 0), some (.jump 0 0), some (.beqz 0 0), some (.halt 0 0)] := by decide

/-! ## Well-formedness refuses an ill-formed term at each of its checks -/

theorem test_illformed_load : Instr.wellFormed (.load 3 0) = false := by decide
theorem test_illformed_store : Instr.wellFormed (.store 200 0) = false := by decide
theorem test_illformed_add_a : Instr.wellFormed (.add 7 1) = false := by decide
theorem test_illformed_add_b : Instr.wellFormed (.add 1 3) = false := by decide
theorem test_illformed_sub_a : Instr.wellFormed (.sub 3 1) = false := by decide
theorem test_illformed_sub_b : Instr.wellFormed (.sub 1 255) = false := by decide
theorem test_illformed_addi : Instr.wellFormed (.addi 3 1) = false := by decide
theorem test_illformed_subi : Instr.wellFormed (.subi 3 1) = false := by decide
theorem test_illformed_beqz : Instr.wellFormed (.beqz 3 0) = false := by decide
theorem test_wellformed_boundary : Instr.wellFormed (.add 2 0) = true := by decide

/-! ## The written form: lines of R73, R74 and of program P5 -/

theorem test_assemble_program_lines :
    assemble [.addi .r1 (.decimal 5), .subi .pc (.decimal 12), .store .pc (.hexadecimal 1), .halt] =
      [0x05, 0x01, 0x05, 0x06, 0x00, 0x0c, 0x02, 0x00, 0x01, 0xff, 0x00, 0x00] := by decide

theorem test_assemble_illegal_index_and_unused_bytes :
    assemble [.add .r1 (.raw 3), .jumpWith (.decimal 20) (.hexadecimal 0x99), .byte (.decimal 200)] =
      [0x03, 0x01, 0x03, 0x07, 0x14, 0x99, 0xc8] := by decide

/-! ## One step, from 95_test_vectors.md -/

/-- Vector LS1. -/
theorem test_load_plain :
    stepView (machineAt 8 0 0 0x01 0x01 0x01 [(1, 200)]) = some (11, 200, 0, .running) := by decide

/-- Vector LS4. -/
theorem test_load_into_pc_runs_off :
    stepView (machineAt 8 0 0 0x01 0x00 0x00 [(0, 253)]) = some (253, 0, 0, .faulted .programRanOff) := by decide

/-- Vector LS7. -/
theorem test_store_of_pc :
    stepView (machineAt 8 0 0 0x02 0x00 0x05 []) = some (11, 0, 0, .running) := by decide

/-- Vector AR8. -/
theorem test_add_into_pc_wraps :
    stepView (machineAt 8 250 0 0x03 0x00 0x01 []) = some (5, 250, 0, .running) := by decide

/-- Vector AR9. -/
theorem test_sub_wraps :
    stepView (machineAt 8 0 1 0x04 0x01 0x02 []) = some (11, 255, 1, .running) := by decide

/-- Vector AR13. -/
theorem test_sub_into_pc_runs_off :
    stepView (machineAt 8 0 9 0x04 0x00 0x02 []) = some (255, 0, 9, .faulted .programRanOff) := by decide

/-- Vector AR15. -/
theorem test_addi_source_example :
    stepView (machineAt 8 0 0 0x05 0x01 0x07 []) = some (11, 7, 0, .running) := by decide

/-- Vector AR20. -/
theorem test_addi_pc_runs_off :
    stepView (machineAt 8 0 0 0x05 0x00 0xf5 []) = some (253, 0, 0, .faulted .programRanOff) := by decide

/-- Vector AR22. -/
theorem test_subi_wraps :
    stepView (machineAt 8 0 0 0x06 0x01 0x01 []) = some (11, 255, 0, .running) := by decide

/-- Vector AR24. -/
theorem test_subi_pc_backward :
    stepView (machineAt 20 0 0 0x06 0x00 0x0c []) = some (11, 0, 0, .running) := by decide

/-- Vector CT4. -/
theorem test_jump_ignores_b :
    stepView (machineAt 8 0 0 0x07 0x14 0x99 []) = some (20, 0, 0, .running) := by decide

/-- Vector CT2. -/
theorem test_jump_to_254 :
    stepView (machineAt 8 0 0 0x07 0xfe 0x00 []) = some (254, 0, 0, .running) := by decide

/-- Vector CT10. -/
theorem test_beqz_taken_to_255 :
    stepView (machineAt 200 0 0 0x08 0x01 0x34 []) = some (255, 0, 0, .running) := by decide

/-- Vector CT11. -/
theorem test_beqz_not_taken_at_253 :
    stepView (machineAt 253 1 0 0x08 0x01 0x00 []) = some (253, 1, 0, .faulted .programRanOff) := by decide

/-- Vector HT2. -/
theorem test_halt_ignores_operands :
    stepView (machineAt 8 0 0 0xff 0x05 0x09 []) = some (8, 0, 0, .halted) := by decide

/-- Vector HT4. -/
theorem test_halt_at_253 :
    stepView (machineAt 253 0 0 0xff 0x00 0x00 []) = some (253, 0, 0, .halted) := by decide

/-- Vector AR4. -/
theorem test_register_b_checked :
    stepView (machineAt 8 5 0 0x03 0x01 0x03 []) = some (8, 5, 0, .faulted .invalidRegister) := by decide

/-- Vector IV2. -/
theorem test_illegal_opcode :
    stepView (machineAt 8 0 0 0x09 0x00 0x00 []) = some (8, 0, 0, .faulted .invalidOpcode) := by decide

/-- Vector LS8: the byte is written although the advance faults. -/
theorem test_store_kept_on_run_off :
    stepByte (machineAt 253 9 0 0x02 0x01 0x00 []) 0 = some 9 := by decide

/-- Vector HT3: the fetch check comes before decode. -/
theorem test_fetch_check_before_decode :
    stepView ⟨254, 0, 0, .running, [(254, 0xff)]⟩ = some (254, 0, 0, .faulted .programRanOff) := by decide

/-- Storing zero leaves no entry, so that equal memories are equal data. -/
theorem test_write_zero_removes : Memory.write [(3, 7), (9, 1)] 3 0 = [(9, 1)] := by decide

/-! ## Witnesses: the hypotheses of each obligation are met, each clause at a boundary of its range -/

theorem witness_OpcodeByteAloneSelects :
    ((0x00 : Byte).toNat = 0) ∧ (9 ≤ (0x09 : Byte).toNat ∧ (0x09 : Byte).toNat ≤ 0xfe) ∧
    (9 ≤ (0xfe : Byte).toNat ∧ (0xfe : Byte).toNat ≤ 0xfe) := by decide

theorem witness_RegisterFileReadsAndWrites : 2 < (3 : Byte).toNat ∧ 2 < (255 : Byte).toNat := by decide

theorem witness_StatusCodesAreDistinct : statusCode (.faulted .programRanOff) =
    statusCode (.faulted .programRanOff) ∧ statusFaultCode .halted = statusFaultCode .halted := by decide

theorem witness_CanonicalMemoryIsUnique :
    ∃ m n : Memory, m.wf ∧ n.wf ∧ ∀ a : Byte, m.read a = n.read a :=
  ⟨[(0, 1), (255, 2)], [(0, 1), (255, 2)], by decide, by decide, fun _ => rfl⟩

theorem witness_StepKeepsMemoryCanonical : ∃ s t : State, s.mem.wf ∧ step s = .next t ∧ t.mem ≠ s.mem :=
  ⟨machineAt 8 9 0 0x02 0x01 0xff [], _, by decide, rfl, by decide⟩

theorem witness_ResetAndLaunchMemoryCanonical :
    ∃ (image : List Byte) (s : State), image.length = 256 ∧ launch image = .next s :=
  ⟨List.replicate 256 1, _, List.length_replicate, if_pos List.length_replicate⟩

theorem witness_LaunchStartsFromResetState : ∃ (image : List Byte) (k : Nat), image.length = 256 ∧
    k = 255 ∧ k < image.length :=
  ⟨List.replicate 256 1, 255, List.length_replicate, rfl, by rw [List.length_replicate]; decide⟩

theorem witness_HostReadsBackItsImage : ∃ (image : List Byte) (s : State), launch image = .next s :=
  ⟨List.replicate 256 1, _, if_pos List.length_replicate⟩

theorem witness_FirstCycleRunsInstructionAtEight : ∃ (image : List Byte) (s : State) (i : Instr),
    launch image = .next s ∧ decode ((image.drop 8).take 3) = .ok (i, []) :=
  ⟨[0, 0, 0, 0, 0, 0, 0, 0, 0x05, 0x01, 0x07] ++ List.replicate 245 0, _, .addi 1 7,
    if_pos (by rw [List.length_append, List.length_replicate]; rfl), rfl⟩

theorem witness_LaunchRefusesOtherLengths :
    (List.replicate 255 (0 : Byte)).length ≠ 256 ∧ (List.replicate 257 (0 : Byte)).length ≠ 256 := by
  rw [List.length_replicate, List.length_replicate]
  decide

theorem witness_ArithmeticWrapsAndNeverTraps : ∃ (s t : State) (ra rb : Reg),
    regOfIndex 1 = some ra ∧ regOfIndex 0 = some rb ∧ exec (.add 1 0) s = .next t ∧ ra ≠ .pc ∧
      s.pc.toNat + 3 < 256 :=
  ⟨machineAt 252 255 0 0x03 0x01 0x00 [], _, .r1, .pc, rfl, rfl, rfl, by decide, by decide⟩

theorem witness_LoadReadsMemory :
    2 < (3 : Byte).toNat ∧
    (∃ s : State, regOfIndex 2 = some .r2 ∧ (s.setReg .r2 (s.mem.read 0)).pc.toNat + 3 < 256) ∧
    (∃ s : State, regOfIndex 0 = some .pc ∧ 256 ≤ (s.setReg .pc (s.mem.read 0)).pc.toNat + 3) :=
  ⟨by decide, ⟨machineAt 252 0 0 0x01 0x02 0x00 [], rfl, by decide⟩,
    ⟨machineAt 8 0 0 0x01 0x00 0x00 [(0, 253)], rfl, by decide⟩⟩

theorem witness_StoreWritesMemory :
    2 < (3 : Byte).toNat ∧
    (∃ s : State, regOfIndex 2 = some .r2 ∧ s.pc.toNat + 3 < 256) ∧
    (∃ s : State, regOfIndex 0 = some .pc ∧ 256 ≤ s.pc.toNat + 3) :=
  ⟨by decide, ⟨machineAt 252 0 9 0x02 0x02 0x00 [], rfl, by decide⟩,
    ⟨machineAt 253 0 0 0x02 0x00 0x00 [], rfl, by decide⟩⟩

theorem witness_AddWritesWrappedSum :
    (2 < (3 : Byte).toNat ∨ 2 < (0 : Byte).toNat) ∧ (2 < (0 : Byte).toNat ∨ 2 < (3 : Byte).toNat) ∧
    (∃ s : State, regOfIndex 0 = some .pc ∧ regOfIndex 1 = some .r1 ∧
      (s.setReg .pc (BitVec.ofNat 8 (((s.reg .pc).toNat + (s.reg .r1).toNat) % 256))).pc.toNat + 3 < 256) ∧
    (∃ s : State, regOfIndex 0 = some .pc ∧ regOfIndex 1 = some .r1 ∧
      256 ≤ (s.setReg .pc (BitVec.ofNat 8 (((s.reg .pc).toNat + (s.reg .r1).toNat) % 256))).pc.toNat + 3) :=
  ⟨by decide, by decide, ⟨machineAt 8 244 0 0x03 0x00 0x01 [], rfl, rfl, by decide⟩,
    ⟨machineAt 8 245 0 0x03 0x00 0x01 [], rfl, rfl, by decide⟩⟩

theorem witness_SubWritesWrappedDifference :
    (2 < (3 : Byte).toNat ∨ 2 < (0 : Byte).toNat) ∧ (2 < (0 : Byte).toNat ∨ 2 < (3 : Byte).toNat) ∧
    (∃ s : State, regOfIndex 0 = some .pc ∧ regOfIndex 2 = some .r2 ∧
      (s.setReg .pc (BitVec.ofInt 8 ((((s.reg .pc).toNat : Int) - (s.reg .r2).toNat) % 256))).pc.toNat + 3 < 256) ∧
    (∃ s : State, regOfIndex 0 = some .pc ∧ regOfIndex 2 = some .r2 ∧
      256 ≤ (s.setReg .pc (BitVec.ofInt 8 ((((s.reg .pc).toNat : Int) - (s.reg .r2).toNat) % 256))).pc.toNat + 3) :=
  ⟨by decide, by decide, ⟨machineAt 8 0 12 0x04 0x00 0x02 [], rfl, rfl, by decide⟩,
    ⟨machineAt 8 0 11 0x04 0x00 0x02 [], rfl, rfl, by decide⟩⟩

theorem witness_AddiWritesWrappedSum :
    2 < (3 : Byte).toNat ∧
    (∃ s : State, regOfIndex 0 = some .pc ∧
      (s.setReg .pc (BitVec.ofNat 8 (((s.reg .pc).toNat + (244 : Byte).toNat) % 256))).pc.toNat + 3 < 256) ∧
    (∃ s : State, regOfIndex 0 = some .pc ∧
      256 ≤ (s.setReg .pc (BitVec.ofNat 8 (((s.reg .pc).toNat + (245 : Byte).toNat) % 256))).pc.toNat + 3) :=
  ⟨by decide, ⟨machineAt 8 0 0 0x05 0x00 244 [], rfl, by decide⟩,
    ⟨machineAt 8 0 0 0x05 0x00 245 [], rfl, by decide⟩⟩

theorem witness_SubiWritesWrappedDifference :
    2 < (3 : Byte).toNat ∧
    (∃ s : State, regOfIndex 0 = some .pc ∧
      (s.setReg .pc (BitVec.ofInt 8 ((((s.reg .pc).toNat : Int) - (12 : Byte).toNat) % 256))).pc.toNat + 3 < 256) ∧
    (∃ s : State, regOfIndex 0 = some .pc ∧
      256 ≤ (s.setReg .pc (BitVec.ofInt 8 ((((s.reg .pc).toNat : Int) - (11 : Byte).toNat) % 256))).pc.toNat + 3) :=
  ⟨by decide, ⟨machineAt 8 0 0 0x06 0x00 12 [], rfl, by decide⟩,
    ⟨machineAt 8 0 0 0x06 0x00 11 [], rfl, by decide⟩⟩

theorem witness_BeqzSkipsForwardOnZero :
    2 < (3 : Byte).toNat ∧
    (∃ s : State, regOfIndex 1 = some .r1 ∧
      s.pc.toNat + (if s.reg .r1 = 0 then 3 + (52 : Byte).toNat else 3) < 256 ∧ s.reg .r1 = 0) ∧
    (∃ s : State, regOfIndex 1 = some .r1 ∧
      s.pc.toNat + (if s.reg .r1 = 0 then 3 + (53 : Byte).toNat else 3) < 256 ∧ s.reg .r1 ≠ 0) ∧
    (∃ s : State, regOfIndex 1 = some .r1 ∧
      256 ≤ s.pc.toNat + (if s.reg .r1 = 0 then 3 + (53 : Byte).toNat else 3)) :=
  ⟨by decide, ⟨machineAt 200 0 0 0x08 0x01 52 [], rfl, by decide, by decide⟩,
    ⟨machineAt 252 1 0 0x08 0x01 53 [], rfl, by decide, by decide⟩,
    ⟨machineAt 200 0 0 0x08 0x01 53 [], rfl, by decide⟩⟩

theorem witness_HaltStopsWithoutAdvance :
    ∃ s : State, s.status = .running ∧ s.pc.toNat ≤ 253 ∧ s.mem.read s.pc = 0xff :=
  ⟨machineAt 253 0 0 0xff 0x05 0x09 [], by decide, by decide, by decide⟩

theorem witness_RegisterFormsFrame : ∃ (s t : State) (q : Reg), q ≠ .pc ∧ regOfIndex 1 ≠ some q ∧
    Instr.sub 1 2 ∈ [Instr.load 1 2, .add 1 2, .sub 1 2, .addi 1 2, .subi 1 2] ∧
    exec (.sub 1 2) s = .next t :=
  ⟨machineAt 8 5 3 0x04 0x01 0x02 [], _, .r2, by decide, by decide, by decide, rfl⟩

theorem witness_StoreFrame : ∃ (s t : State) (x y : Byte),
    exec (.store 1 255) s = .next t ∧ effectiveAddress 255 = x ∧ y ≠ x :=
  ⟨machineAt 8 5 3 0x02 0x01 0xff [], _, 255, 254, rfl, rfl, by decide⟩

theorem witness_ControlFormsFrame : ∃ (s t : State),
    Instr.beqz 1 6 ∈ [Instr.jump 1 6, .beqz 1 6, .halt 1 6] ∧ exec (.beqz 1 6) s = .next t :=
  ⟨machineAt 8 0 3 0x08 0x01 0x06 [], _, by decide, rfl⟩

theorem witness_OnlyStoreChangesMemory : ∃ (s t : State) (y : Byte),
    step s = .next t ∧ t.mem.read y ≠ s.mem.read y :=
  ⟨machineAt 253 9 0 0x02 0x01 0x00 [], _, 0, rfl, by decide⟩

theorem witness_StepRunsDecodedInstruction : ∃ (s : State) (i : Instr) (k : Opcode),
    s.status = .running ∧ s.pc.toNat ≤ 253 ∧
    decode [s.mem.read s.pc, s.mem.read (s.pc + 1), s.mem.read (s.pc + 2)] = .ok (i, []) ∧
    opcodeOfByte (s.mem.read s.pc) = some k :=
  ⟨machineAt 253 0 0 0x05 0x01 0x07 [], .addi 1 7, .addi, by decide, by decide, rfl, rfl⟩

theorem witness_BlockCycleIsStep : ∃ s : State, s.status = .running ∧ s.mem.read s.pc = 0x08 :=
  ⟨machineAt 253 0 0 0x08 0x01 0x07 [], by decide, by decide⟩

theorem witness_IllegalOpcodeFaults : ∃ s : State, s.status = .running ∧ s.pc.toNat ≤ 253 ∧
    9 ≤ (s.mem.read s.pc).toNat ∧ (s.mem.read s.pc).toNat ≤ 0xfe :=
  ⟨machineAt 253 0 0 0xfe 0x01 0x01 [], by decide, by decide, by decide, by decide⟩

theorem witness_IllegalOpcodeFaults_zero : ∃ s : State, s.status = .running ∧ s.pc.toNat ≤ 253 ∧
    (s.mem.read s.pc).toNat = 0 :=
  ⟨State.reset, by decide, by decide, by decide⟩

theorem witness_FetchCheckComesFirst : ∃ s : State, s.status = .running ∧ 253 < s.pc.toNat :=
  ⟨machineAt 254 0 0 0xff 0x00 0x00 [], by decide, by decide⟩

theorem witness_RegisterFaultIffIllFormed :
    State.reset.status = .running ∧ Instr.wellFormed (.sub 2 3) = false := by decide

/-- The clauses of StatusAfterStepByFetchedBytes are each met by a state: Halt at 253, 0xfe, an illegal a, an
illegal b, PC 254. -/
theorem witness_StatusAfterStepByFetchedBytes :
    stepView (machineAt 253 0 0 0xff 0x00 0x00 []) = some (253, 0, 0, .halted) ∧
    stepView (machineAt 253 0 0 0xfe 0x03 0x03 []) = some (253, 0, 0, .faulted .invalidOpcode) ∧
    stepView (machineAt 253 0 0 0x08 0x03 0x00 []) = some (253, 0, 0, .faulted .invalidRegister) ∧
    stepView (machineAt 253 0 0 0x04 0x02 0x03 []) = some (253, 0, 0, .faulted .invalidRegister) ∧
    stepView (machineAt 254 0 0 0x09 0x00 0x00 []) = some (254, 0, 0, .faulted .programRanOff) := by decide

/-- Its advance clauses meet at the last sum that stays and the first that runs off. -/
theorem witness_StatusAfterStepByFetchedBytes_advance :
    stepView (machineAt 8 0 0 0x05 0x00 0xf4 []) = some (255, 0, 0, .running) ∧
    stepView (machineAt 8 0 0 0x05 0x00 0xf5 []) = some (253, 0, 0, .faulted .programRanOff) := by decide

theorem witness_PcIncrementerSumsAndDetectsRunOff :
    (258 ≤ 258) ∧ pcIncrementer 255 0 = (255, false) ∧ pcIncrementer 253 3 = (0, true) := by decide

theorem witness_TerminalStatusKeepsState : ∃ (s t : State), s.status ≠ .running ∧ ReachesIn 0 s t :=
  ⟨⟨11, 7, 0, .faulted .programRanOff, []⟩, _, by decide, rfl⟩

theorem witness_TerminalStatusKeepsState_halted : ∃ (s t : State), s.status ≠ .running ∧ ReachesIn 0 s t :=
  ⟨⟨11, 7, 0, .halted, []⟩, _, by decide, rfl⟩

theorem witness_StoreThenLoadReturnsValue : ∃ s t u w : State,
    regOfIndex 1 = some .r1 ∧ regOfIndex 2 = some .r2 ∧ exec (.store 1 255) s = .next t ∧
    u.mem.read 255 = t.mem.read 255 ∧ u.status = .running ∧ exec (.load 2 255) u = .next w ∧
    w.status = .running ∧ Reg.r2 ≠ .pc :=
  ⟨⟨8, 9, 0, .running, []⟩, _, ⟨11, 9, 0, .running, [(255, 9)]⟩, _, rfl, rfl, rfl, by decide, rfl, rfl,
    by decide, by decide⟩

theorem witness_StoreThenLoadReturnsValue_pc : ∃ s t u w : State,
    regOfIndex 1 = some .r1 ∧ regOfIndex 0 = some .pc ∧ exec (.store 1 255) s = .next t ∧
    u.mem.read 255 = t.mem.read 255 ∧ u.status = .running ∧ exec (.load 0 255) u = .next w ∧
    w.status = .running :=
  ⟨⟨8, 252, 0, .running, []⟩, _, ⟨11, 252, 0, .running, [(255, 252)]⟩, _, rfl, rfl, rfl, by decide, rfl, rfl,
    by decide⟩

/-- The next opcode is overwritten (0x09 becomes 0xff), and the patched bytes decode. -/
theorem witness_StoreIntoCodeTakesEffectAtNextFetch : ∃ s : State, s.status = .running ∧
    s.pc.toNat ≤ 250 ∧ s.mem.read s.pc = 0x02 ∧ regOfIndex (s.mem.read (s.pc + 1)) = some .r1 ∧
    s.mem.read (s.pc + 2) = s.pc + 3 ∧ s.reg .r1 = 0xff ∧
    decode [0xff, s.mem.read (s.pc + 4), s.mem.read (s.pc + 5)] = .ok (.halt 0 0, []) :=
  ⟨machineAt 250 255 0 0x02 0x01 253 [(253, 9)], by decide, by decide, by decide, by decide, by decide,
    by decide, rfl⟩

/-- The next opcode is overwritten with an illegal one. -/
theorem witness_StoreIntoCodeTakesEffectAtNextFetch_illegal : ∃ s : State, s.status = .running ∧
    s.pc.toNat ≤ 250 ∧ s.mem.read s.pc = 0x02 ∧ regOfIndex (s.mem.read (s.pc + 1)) = some .r1 ∧
    s.mem.read (s.pc + 2) = s.pc + 3 ∧ s.reg .r1 = 0x09 ∧
    decode [0x09, s.mem.read (s.pc + 4), s.mem.read (s.pc + 5)] = .error (.invalidOpcode 0x09) :=
  ⟨machineAt 250 9 0 0x02 0x01 253 [(253, 0xff)], by decide, by decide, by decide, by decide, by decide,
    by decide, rfl⟩

/-- The Store's own last operand byte is overwritten, at the last PC that leaves room to advance. -/
theorem witness_StoreIntoCodeTakesEffectAtNextFetch_own : ∃ s : State, s.status = .running ∧
    s.pc.toNat ≤ 252 ∧ s.mem.read s.pc = 0x02 ∧ regOfIndex (s.mem.read (s.pc + 1)) = some .r1 ∧
    s.mem.read (s.pc + 2) = s.pc + 2 :=
  ⟨machineAt 252 85 0 0x02 0x01 254 [], by decide, by decide, by decide, by decide, by decide⟩

theorem witness_JumpThenCycleAtTarget :
    (∃ s : State, s.status = .running ∧ s.pc.toNat ≤ 253 ∧ s.mem.read s.pc = 0x07 ∧
      s.mem.read (s.pc + 1) = 253 ∧ (253 : Byte).toNat ≤ 253 ∧
      decode [s.mem.read 253, s.mem.read (253 + 1), s.mem.read (253 + 2)] = .ok (.jump 253 9, [])) ∧
    ∃ s : State, s.status = .running ∧ 253 < (254 : Byte).toNat :=
  ⟨⟨machineAt 253 0 0 0x07 253 9 [], by decide, by decide, by decide, by decide, by decide, rfl⟩,
    ⟨State.reset, by decide, by decide⟩⟩

theorem witness_UnusedBytesHaveNoMeaning :
    (∃ s : State, s.status = .running ∧ s.pc.toNat ≤ 253 ∧ s.mem.read s.pc = 0x07) ∧
    ∃ s : State, s.status = .running ∧ s.pc.toNat ≤ 253 ∧ s.mem.read s.pc = 0xff :=
  ⟨⟨machineAt 253 0 0 0x07 0x08 0x00 [], by decide, by decide, by decide⟩,
    ⟨machineAt 253 0 0 0xff 0x05 0x09 [], by decide, by decide, by decide⟩⟩

theorem witness_AssemblyLinesAreInstructions : ∃ line : AsmLine, ∀ n, line ≠ .byte n :=
  ⟨.haltWith (.decimal 5) (.hexadecimal 9), fun _ => AsmLine.noConfusion⟩

theorem witness_IdiomsHaveTheirEffect :
    (∃ s : State, s.pc.toNat + 3 < 256) ∧
    (∃ s : State, regOfIndex 0 = some .pc ∧ (s.setReg .pc 0).pc.toNat + 3 < 256) ∧
    (∃ s : State, regOfIndex 2 = some .r2 ∧ s.reg .r2 = 0 ∧ s.pc.toNat + 6 < 256) ∧
    (∃ s : State, (9 : Byte).toNat + 3 ≤ s.pc.toNat) ∧
    ∃ s : State, (s.mem.read 0).toNat + 3 < 256 :=
  ⟨⟨machineAt 252 0 0 0x05 0x01 0x00 [], by decide⟩,
    ⟨machineAt 253 0 0 0x04 0x00 0x00 [], rfl, by decide⟩,
    ⟨machineAt 249 1 0 0x08 0x02 0x03 [], rfl, by decide, by decide⟩,
    ⟨machineAt 12 0 0 0x06 0x00 0x0c [], by decide⟩,
    ⟨machineAt 8 0 0 0x01 0x00 0x00 [(0, 252)], by decide⟩⟩

theorem witness_PlacedWordRunsNext : ∃ (s : State) (y : Byte), decodeTableWord 24 0xff0509 = some (.halt 5 9) ∧
    s.status = .running ∧ s.pc.toNat ≤ 253 ∧ y ≠ (s.withFetchWord 24 0xff0509).pc ∧
    y ≠ (s.withFetchWord 24 0xff0509).pc + 1 ∧ y ≠ (s.withFetchWord 24 0xff0509).pc + 2 :=
  ⟨State.reset, 11, by decide, by decide, by decide, by decide, by decide, by decide⟩

theorem witness_RunEndsInOneWay : ∃ s t u : State, EndsIn 1 s t ∧ EndsIn 1 s u :=
  ⟨machineAt 11 7 0 0xff 0x00 0x00 [], _, _, ⟨rfl, Status.noConfusion⟩, ⟨rfl, Status.noConfusion⟩⟩

theorem witness_SelfLoopsNeverEnd_jump : ∃ s : State, s.status = .running ∧ s.pc.toNat ≤ 253 ∧
    s.mem.read s.pc = 0x07 ∧ s.mem.read (s.pc + 1) = s.pc :=
  ⟨machineAt 253 0 0 0x07 253 0x00 [], by decide, by decide, by decide, by decide⟩

theorem witness_SelfLoopsNeverEnd_subi : ∃ s : State, s.status = .running ∧ s.pc.toNat ≤ 253 ∧
    s.mem.read s.pc = 0x06 ∧ s.mem.read (s.pc + 1) = 0 ∧ s.mem.read (s.pc + 2) = 3 ∧ 3 ≤ s.pc.toNat :=
  ⟨machineAt 3 0 0 0x06 0x00 0x03 [], by decide, by decide, by decide, by decide, by decide, by decide⟩

end Sys2Proof.Tests
end

/-! ## The state: what a terminal status keeps, and what a launch starts from (10_state.md) -/

namespace Sys2Proof.Machine

/-- Only a Running machine steps: the contrapositive of the inversion of a step. -/
theorem step_ne_next_of_terminal {s : State} (hs : s.Terminal) (t : State) : step s ≠ .next t :=
  fun hstep => hs (step_cases hstep).1

/-- A run from a terminal state is the empty run, because a first cycle would be a step. -/
theorem eq_of_reachesIn_of_terminal {n : Nat} {s t : State} (hs : s.Terminal)
    (hrun : ReachesIn n s t) : t = s := by
  cases n with
  | zero => exact (reachesIn_zero_iff.mp hrun).symm
  | succ n =>
    obtain ⟨u, hstep, -⟩ := reachesIn_succ_iff.mp hrun
    exact absurd hstep (step_ne_next_of_terminal hs u)

theorem result?_of_terminal {s : State} (hs : s.Terminal) :
    result? s = some ⟨s.status, s.mem.toBytes, s.pc, s.r1, s.r2⟩ := by
  unfold result?
  split
  case h_1 hrunning => exact absurd hrunning hs
  case h_2 hhalted => rw [hhalted]
  case h_3 hfaulted => rw [hfaulted]

/-- Settles O33: a cycle needs status Running, so every run from a terminal state is empty. -/
theorem terminalStatusKeepsState : Obligations.TerminalStatusKeepsState := by
  intro s hs
  exact ⟨step_ne_next_of_terminal hs, fun _ _ => eq_of_reachesIn_of_terminal hs,
    result?_of_terminal hs⟩

theorem launch_of_length_eq {image : List Byte} (h : image.length = 256) :
    launch image = .next { State.reset with mem := Memory.ofBytesFrom 0 image } :=
  if_pos h

/-- An image that fits is read back by byte addresses: no index into it wraps. -/
theorem read_ofBytesFrom_zero {image : List Byte} (hfit : image.length ≤ 256) {k : Nat}
    (hk : k < image.length) : (Memory.ofBytesFrom 0 image).read (BitVec.ofNat 8 k) = image[k] := by
  have haddr : (BitVec.ofNat 8 k).toNat = 0 + k := by
    rw [BitVec.toNat_ofNat, Nat.mod_eq_of_lt (by omega), Nat.zero_add]
  rw [Memory.read, haddr, readAt_ofBytesFrom 0 k image hk]

/-- Settles O37: the launched state is the reset state with the image as its memory. -/
theorem launchStartsFromResetState : Obligations.LaunchStartsFromResetState := by
  intro image hlen
  exact ⟨_, launch_of_length_eq hlen, rfl, rfl, rfl, rfl,
    fun _ hk => read_ofBytesFrom_zero hlen.le hk⟩

end Sys2Proof.Machine

/-! ## The cycle: what a Running machine fetches is what it runs (20_memory.md) -/

namespace Sys2Proof.Machine

/-- R63: with a legal opcode in front, `decode` takes the next two bytes as operands a and b. -/
theorem decode_cons_of_opcodeOfByte {op : Byte} {k : Opcode} (hk : opcodeOfByte op = some k)
    (a b : Byte) (rest : List Byte) : decode (op :: a :: b :: rest) = .ok (instrOf k a b, rest) := by
  simp [decode, hk]

theorem step_of_decode {s : State} {i : Instr} {rest : List Byte} (hs : s.status = .running)
    (hpc : s.pc.toNat ≤ 253) (hd : decode (fetchBytes s) = .ok (i, rest)) : step s = exec i s :=
  step_of_ok hs (fetchDecode_of_ok hpc hd)

/-- Settles O26: both clauses are a fetch that decodes, the second one because its opcode is legal. -/
theorem stepRunsDecodedInstruction : Obligations.StepRunsDecodedInstruction := by
  intro s hs hpc
  constructor
  · intro i hd
    exact step_of_decode hs hpc hd
  · intro k hk
    exact step_of_decode hs hpc (decode_cons_of_opcodeOfByte hk _ _ [])

end Sys2Proof.Machine

/-! ## The opcode map: nine bytes select an instruction, every other byte is rejected (30_encoding.md) -/

namespace Sys2Proof.Machine

/-- R67: an opcode byte outside the map is rejected by name, whatever bytes stand after it. -/
theorem decode_cons_of_opcodeOfByte_eq_none {op : Byte} (hop : opcodeOfByte op = none)
    (a b : Byte) (rest : List Byte) : decode (op :: a :: b :: rest) = .error (.invalidOpcode op) := by
  simp [decode, hop]

/-- The legal bytes of R66 are 0x01 to 0x08 and 0xff. -/
theorem toNat_of_opcodeOfByte_eq_some {op : Byte} {k : Opcode} (hk : opcodeOfByte op = some k) :
    (1 ≤ op.toNat ∧ op.toNat ≤ 8) ∨ op.toNat = 0xff := by
  unfold opcodeOfByte at hk
  split at hk
  case h_10 => cases hk
  all_goals decide

theorem opcodeOfByte_eq_none {op : Byte} (hop : op.toNat = 0 ∨ (9 ≤ op.toNat ∧ op.toNat ≤ 0xfe)) :
    opcodeOfByte op = none := by
  refine Option.eq_none_iff_forall_ne_some.mpr fun k hk => ?_
  have hlegal := toNat_of_opcodeOfByte_eq_some hk
  omega

/-- Settles O4: a legal byte heads the encoding of its instruction, which decodes back whatever follows,
and a byte of the illegal range has no row in the opcode map. -/
theorem opcodeByteAloneSelects : Obligations.OpcodeByteAloneSelects := by
  intro a b rest
  exact ⟨(Laws.RoundTrip.load a b).2 rest, (Laws.RoundTrip.store a b).2 rest,
    (Laws.RoundTrip.add a b).2 rest, (Laws.RoundTrip.sub a b).2 rest,
    (Laws.RoundTrip.addi a b).2 rest, (Laws.RoundTrip.subi a b).2 rest,
    (Laws.RoundTrip.jump a b).2 rest, (Laws.RoundTrip.beqz a b).2 rest,
    (Laws.RoundTrip.halt a b).2 rest,
    fun _ hop => decode_cons_of_opcodeOfByte_eq_none (opcodeOfByte_eq_none hop) a b rest⟩

end Sys2Proof.Machine

/-! ## The decode stage: a byte outside the opcode map ends the cycle (40_fetch_decode_execute.md) -/

namespace Sys2Proof.Machine

/-- R82: a fetch that does not decode ends its cycle before execute, with InvalidOpcode raised. -/
theorem step_of_decode_error {s : State} {e : DecodeError} (hs : s.status = .running)
    (hpc : s.pc.toNat ≤ 253) (hd : decode (fetchBytes s) = .error e) :
    step s = .next (raiseFault .invalidOpcode s) :=
  step_of_error hs (fetchDecode_of_error hpc hd)

/-- Settles O27: the fetched opcode byte has no row in the opcode map, so the fetch does not decode, and
raising the fault changes the status only. -/
theorem illegalOpcodeFaults : Obligations.IllegalOpcodeFaults := by
  intro s hs hpc hop
  have hd : decode (fetchBytes s) = .error (.invalidOpcode (s.mem.read s.pc)) :=
    decode_cons_of_opcodeOfByte_eq_none (opcodeOfByte_eq_none hop) _ _ []
  exact step_of_decode_error hs hpc hd

end Sys2Proof.Machine

/-! ## Arithmetic: the ALU law in the integers, and what a wrap leaves alone (42_arithmetic.md) -/

namespace Sys2Proof.Machine

/-- R101 for the sum, as an integer law. -/
theorem alu_add_toInt (p q : Byte) : ((alu .add p q).toNat : Int) = ((p.toNat : Int) + q.toNat) % 256 := by
  rw [alu_add_toNat]
  omega

/-- R101 for the difference, as an integer law: the integer modulus of a negative difference is the wrap. -/
theorem alu_sub_toInt (p q : Byte) : ((alu .sub p q).toNat : Int) = ((p.toNat : Int) - q.toNat) % 256 := by
  have hq := q.isLt
  rw [alu_sub_toNat]
  omega

section
variable {a b : Byte} {ra rb : Reg} (ha : regOfIndex a = some ra) (hb : regOfIndex b = some rb) (s : State)

include ha hb in
theorem exec_add_of_some :
    exec (.add a b) s = .next (advance 3 (s.setReg ra (alu .add (s.reg ra) (s.reg rb)))) :=
  congrArg Host.Outcome.next (aluRegister_of_some ha hb .add s)

include ha hb in
theorem exec_sub_of_some :
    exec (.sub a b) s = .next (advance 3 (s.setReg ra (alu .sub (s.reg ra) (s.reg rb)))) :=
  congrArg Host.Outcome.next (aluRegister_of_some ha hb .sub s)

include ha in
theorem exec_addi_of_some (k : Byte) :
    exec (.addi a k) s = .next (advance 3 (s.setReg ra (alu .add (s.reg ra) k))) :=
  congrArg Host.Outcome.next (aluImmediate_of_some ha .add k s)

include ha in
theorem exec_subi_of_some (k : Byte) :
    exec (.subi a k) s = .next (advance 3 (s.setReg ra (alu .sub (s.reg ra) k))) :=
  congrArg Host.Outcome.next (aluImmediate_of_some ha .sub k s)

end

theorem setReg_pc_of_ne {s : State} {r : Reg} (hr : r ≠ .pc) (v : Byte) : (s.setReg r v).pc = s.pc :=
  reg_setReg_of_ne s r .pc v hr.symm

/-- R122: whatever byte goes into R1 or R2, an advance with room leaves the status alone. -/
theorem status_advance_setReg_of_lt {s : State} {r : Reg} {inc : Nat} (hr : r ≠ .pc)
    (hroom : s.pc.toNat + inc < 256) (v : Byte) : (advance inc (s.setReg r v)).status = s.status := by
  rw [advance_of_lt (by rwa [setReg_pc_of_ne hr])]
  exact setReg_status s r v

/-- Settles O11: each of the four meanings writes the ALU's byte and advances; the ALU law gives that byte
as an integer modulo 256, and the status clause holds of any byte written. -/
theorem arithmeticWrapsAndNeverTraps : Obligations.ArithmeticWrapsAndNeverTraps := by
  intro s a b k ra rb ha hb
  have hadd := exec_add_of_some ha hb s
  have hsub := exec_sub_of_some ha hb s
  have haddi := exec_addi_of_some ha s k
  have hsubi := exec_subi_of_some ha s k
  refine ⟨⟨_, alu_add_toInt _ _, hadd⟩, ⟨_, alu_sub_toInt _ _, hsub⟩,
    ⟨_, alu_add_toInt _ _, haddi⟩, ⟨_, alu_sub_toInt _ _, hsubi⟩, ?_⟩
  intro t ht hra hroom
  have hwritten : ∃ v, advance 3 (s.setReg ra v) = t := by
    rcases ht with h | h | h | h
    · exact ⟨_, Host.Outcome.next.inj (hadd.symm.trans h)⟩
    · exact ⟨_, Host.Outcome.next.inj (hsub.symm.trans h)⟩
    · exact ⟨_, Host.Outcome.next.inj (haddi.symm.trans h)⟩
    · exact ⟨_, Host.Outcome.next.inj (hsubi.symm.trans h)⟩
  obtain ⟨v, rfl⟩ := hwritten
  exact status_advance_setReg_of_lt hra hroom v

end Sys2Proof.Machine

/-! ## Control transfer: a Jump lands exactly on its operand (43_control_transfer.md) -/

namespace Sys2Proof.Machine

/-- The advance stage of R109 and R92, increment 0: from no address does it run off. -/
theorem advance_zero (s : State) : advance 0 s = s := by
  have hroom : s.pc.toNat + 0 < 256 := s.pc.isLt
  rw [advance_of_lt hroom, Nat.add_zero, BitVec.ofNat_toNat, BitVec.setWidth_eq]

/-- R109: the execute stage of a Jump is the write of its operand to the PC, with no check of it. -/
theorem exec_jump (a b : Byte) (s : State) : exec (.jump a b) s = .next { s with pc := a } :=
  congrArg Host.Outcome.next (advance_zero { s with pc := a })

/-- Settles O19: the encoding of a Jump decodes back, its advance by 0 keeps the PC it wrote, and a fetch
reads at the PC. -/
theorem jumpSetsPc : Obligations.JumpSetsPc := by
  intro s a b rest
  have hdecode := (Laws.RoundTrip.jump a b).2 rest
  have hfetch : fetchBytes { s with pc := a } = [s.mem.read a, s.mem.read (a + 1), s.mem.read (a + 2)] :=
    rfl
  exact ⟨hdecode, exec_jump a b s, hfetch⟩

end Sys2Proof.Machine

/-! ## Halt: the cycle ends at the Halt's own address and is the last one (44_halt.md) -/

namespace Sys2Proof.Machine

/-- R114 and R115: the execute stage of a Halt is the write of the status, with no advance after it. -/
theorem exec_halt (a b : Byte) (s : State) : exec (.halt a b) s = .next { s with status := .halted } := by
  rfl

/-- R85: a fetched 0xff is a Halt whatever its operand bytes hold, so the cycle changes the status only. -/
theorem step_of_read_eq_halt {s : State} (hs : s.status = .running) (hpc : s.pc.toNat ≤ 253)
    (hop : s.mem.read s.pc = 0xff) : step s = .next { s with status := .halted } := by
  have hk : opcodeOfByte (s.mem.read s.pc) = some .halt := by rw [hop]; rfl
  calc step s
      = exec (.halt (s.mem.read (s.pc + 1)) (s.mem.read (s.pc + 2))) s :=
        step_of_decode hs hpc (decode_cons_of_opcodeOfByte hk _ _ [])
    _ = .next { s with status := .halted } := exec_halt _ _ s

/-- R117: the state a Halt leaves is terminal. -/
theorem terminal_of_halted (s : State) : State.Terminal { s with status := .halted } :=
  Status.noConfusion

/-- Settles O21: the encoding of a Halt decodes back, a fetched Halt writes the status only, and no machine
steps from the terminal status it writes. -/
theorem haltStopsWithoutAdvance : Obligations.HaltStopsWithoutAdvance := by
  intro s a b rest
  have hdecode := (Laws.RoundTrip.halt a b).2 rest
  exact ⟨hdecode, exec_halt a b s, step_of_read_eq_halt,
    step_ne_next_of_terminal (terminal_of_halted s)⟩

end Sys2Proof.Machine

/-! ## Encoding: the decoder and the encoder are inverse, in memory and in the table word (30_encoding.md) -/

namespace Sys2Proof.Machine

/-- R66: the opcode map, read from the opcode to its byte. -/
def byteOfOpcode : Opcode → Byte
  | .load => 0x01
  | .store => 0x02
  | .add => 0x03
  | .sub => 0x04
  | .addi => 0x05
  | .subi => 0x06
  | .jump => 0x07
  | .beqz => 0x08
  | .halt => 0xff

theorem opcodeOfByte_byteOfOpcode (k : Opcode) : opcodeOfByte (byteOfOpcode k) = some k := by
  cases k <;> rfl

/-- No two bytes name one opcode, so the two readings of the map agree. -/
theorem opcodeOfByte_eq_some_iff {op : Byte} {k : Opcode} :
    opcodeOfByte op = some k ↔ op = byteOfOpcode k := by
  constructor
  · intro hk
    unfold opcodeOfByte at hk
    split at hk <;> cases hk <;> rfl
  · rintro rfl
    exact opcodeOfByte_byteOfOpcode k

theorem encode_instrOf (k : Opcode) (a b : Byte) : encode (instrOf k a b) = [byteOfOpcode k, a, b] := by
  cases k <;> rfl

/-- Inversion of the decoder: it took three bytes, and the first of them names the opcode. -/
theorem eq_cons_of_decode_eq_ok {bytes rest : List Byte} {i : Instr}
    (hd : decode bytes = .ok (i, rest)) :
    ∃ k a b, bytes = byteOfOpcode k :: a :: b :: rest ∧ i = instrOf k a b := by
  unfold decode at hd
  split at hd
  · split at hd
    · next hk =>
      cases hd
      exact ⟨_, _, _, by rw [opcodeOfByte_eq_some_iff.mp hk], rfl⟩
    · cases hd
  · cases hd

theorem roundTrip (i : Instr) : Laws.RoundTrip.Statement i := by
  cases i with
  | load a b => exact Laws.RoundTrip.load a b
  | store a b => exact Laws.RoundTrip.store a b
  | add a b => exact Laws.RoundTrip.add a b
  | sub a b => exact Laws.RoundTrip.sub a b
  | addi a b => exact Laws.RoundTrip.addi a b
  | subi a b => exact Laws.RoundTrip.subi a b
  | jump a b => exact Laws.RoundTrip.jump a b
  | beqz a b => exact Laws.RoundTrip.beqz a b
  | halt a b => exact Laws.RoundTrip.halt a b

theorem decode_eq_ok_iff {bytes rest : List Byte} {i : Instr} :
    decode bytes = .ok (i, rest) ↔ bytes = encode i ++ rest := by
  constructor
  · intro hd
    obtain ⟨k, a, b, rfl, rfl⟩ := eq_cons_of_decode_eq_ok hd
    rw [encode_instrOf]
    rfl
  · rintro rfl
    exact (roundTrip i).2 rest

/-- Settles O1: a decode that answers has read the bytes of an instruction in the opcode map, and each
instruction's bytes are read back. -/
theorem decodeInvertsEncode : Obligations.DecodeInvertsEncode :=
  fun _ _ _ => decode_eq_ok_iff

/-- Three bytes that decode are exactly an encoding: nothing is left over. -/
theorem decode_eq_ok_iff_of_length {bytes rest : List Byte} {i : Instr} (hlen : bytes.length = 3) :
    decode bytes = .ok (i, rest) ↔ bytes = encode i ∧ rest = [] := by
  rw [decode_eq_ok_iff]
  constructor
  · intro h
    have hsum : bytes.length = 3 + rest.length := by rw [h, List.length_append, (roundTrip i).1]; rfl
    obtain rfl := List.eq_nil_of_length_eq_zero (show rest.length = 0 by omega)
    exact ⟨by rwa [List.append_nil] at h, rfl⟩
  · rintro ⟨rfl, rfl⟩
    exact (List.append_nil _).symm

theorem decodeTableWord_eq_some_iff {nbits w : Nat} {i : Instr} :
    decodeTableWord nbits w = some i ↔ bytesOfTableWord nbits w = encode i := by
  have hiff : decodeTableWord nbits w = some i ↔
      ∃ rest, decode (bytesOfTableWord nbits w) = .ok (i, rest) := by
    unfold decodeTableWord
    split
    · next hd => simp [hd]
    · next hd => simp [hd]
  rw [hiff]
  simp [decode_eq_ok_iff_of_length (show (bytesOfTableWord nbits w).length = 3 from rfl)]

/-- R62: the three fields of the table word are the three bytes in memory order. -/
theorem bytesOfTableWord_of_fields (op a b : Byte) :
    bytesOfTableWord 24 (op.toNat * 65536 + a.toNat * 256 + b.toNat) = [op, a, b] := by
  have hop := op.isLt
  have ha := a.isLt
  have hb := b.isLt
  simp only [bytesOfTableWord, List.cons.injEq, ← BitVec.toNat_inj, BitVec.toNat_ofNat, and_true]
  omega

/-- Settles O2: the table word's fields are the bytes the decoder reads, and decoding inverts encoding. -/
theorem tableWordDecodesByField : Obligations.TableWordDecodesByField := by
  intro op a b i
  rw [decodeTableWord_eq_some_iff, bytesOfTableWord_of_fields, eq_comm]

end Sys2Proof.Machine

/-! ## Memory: reads determine a canonical memory, and no cycle leaves the canonical form (20_memory.md) -/

namespace Sys2Proof.Machine

theorem read_write (m : Memory) (a b v : Byte) :
    (m.write a v).read b = if b = a then v else m.read b := by
  by_cases hb : b = a
  · rw [hb, read_write_self, if_pos rfl]
  · rw [read_write_of_ne m v hb, if_neg hb]

/-- Settles O7: a write answers its own address and no other one. -/
theorem memoryReadAfterWrite : Obligations.MemoryReadAfterWrite :=
  read_write

theorem readAt_of_mem {m : Memory} (hm : m.Pairwise (fun c d => c.1 < d.1)) {c : Host.Cell}
    (hc : c ∈ m) : m.readAt c.1 = c.2 := by
  induction m with
  | nil => cases hc
  | cons d rest ih =>
    obtain ⟨hd, hrest⟩ := List.pairwise_cons.mp hm
    rcases List.mem_cons.mp hc with rfl | hc
    · exact if_pos rfl
    · have hne : d.1 ≠ c.1 := (hd c hc).ne
      rw [Memory.readAt, if_neg hne, ih hrest hc]

theorem mem_of_readAt_ne {m : Memory} {a : Nat} (ha : m.readAt a ≠ Config.unlistedByte) :
    (a, m.readAt a) ∈ m := by
  induction m with
  | nil => exact absurd rfl ha
  | cons d rest ih =>
    unfold Memory.readAt at ha ⊢
    split at ha
    · next hda => simp [← hda]
    · next hda => simpa [hda] using .inr (ih ha)

/-- R42: the entries of a canonical memory are the addresses that read as something else than an unlisted
one, with what they read as. -/
theorem mem_iff_of_wf {m : Memory} (hm : m.wf) (c : Host.Cell) :
    c ∈ m ↔ c.1 < 256 ∧ m.readAt c.1 = c.2 ∧ c.2 ≠ Config.unlistedByte := by
  constructor
  · intro hc
    obtain ⟨hlt, hne⟩ := hm.2 c hc
    exact ⟨hlt, readAt_of_mem hm.1 hc, hne⟩
  · rintro ⟨-, hread, hne⟩
    rw [← hread] at hne
    have := mem_of_readAt_ne hne
    rwa [hread] at this

/-- Settles O8: the reads determine which entries a canonical memory has, and their order is by address. -/
theorem canonicalMemoryIsUnique : Obligations.CanonicalMemoryIsUnique := by
  intro m n hm hn hread
  have hreadAt : ∀ a < 256, m.readAt a = n.readAt a := fun a ha => by
    simpa [Memory.read, Nat.mod_eq_of_lt ha] using hread (BitVec.ofNat 8 a)
  have hmem : ∀ c, c ∈ m ↔ c ∈ n := fun c => by
    rw [mem_iff_of_wf hm, mem_iff_of_wf hn]
    exact and_congr_right fun hlt => by rw [hreadAt c.1 hlt]
  have hirrefl : Std.Irrefl (fun c d : Host.Cell => c.1 < d.1) := ⟨fun c => lt_irrefl c.1⟩
  have hasymm : Std.Antisymm (fun c d : Host.Cell => c.1 < d.1) := ⟨fun _ _ h h' => absurd h' h.asymm⟩
  exact hm.1.eq_of_mem_iff hn.1 hmem

theorem wf_of_exec {i : Instr} {s t : State} (hm : s.mem.wf) (h : exec i s = .next t) : t.mem.wf := by
  rcases exec_mem_cases h with hmem | ⟨a, b, r, -, -, hmem⟩
  · rwa [hmem]
  · rw [hmem]
    exact wf_write hm _ _

/-- Settles O9: a cycle that faults before execute keeps the memory, and one that executes makes at most one
write, which keeps the canonical form. -/
theorem stepKeepsMemoryCanonical : Obligations.StepKeepsMemoryCanonical := by
  intro s t hm hstep
  obtain ⟨-, ⟨kind, -, rfl⟩ | ⟨i, -, hexec⟩⟩ := step_cases hstep
  · exact hm
  · exact wf_of_exec hm hexec

/-- Inversion of a launch: the image fits exactly, and it is the memory of the reset state. -/
theorem launch_eq_next_iff {image : List Byte} {s : State} :
    launch image = .next s ↔
      image.length = 256 ∧ s = { State.reset with mem := Memory.ofBytesFrom 0 image } := by
  constructor
  · intro h
    unfold launch at h
    split at h
    · next hlen => exact ⟨hlen, (Host.Outcome.next.inj h).symm⟩
    · cases h
  · rintro ⟨hlen, rfl⟩
    exact launch_of_length_eq hlen

/-- Settles O10: reset lists nothing, and a launch lists the bytes of its image in address order. -/
theorem resetAndLaunchMemoryCanonical : Obligations.ResetAndLaunchMemoryCanonical := by
  refine ⟨wf_nil, fun image s h => ?_⟩
  obtain ⟨hlen, rfl⟩ := launch_eq_next_iff.mp h
  exact wf_ofBytesFrom hlen.le

end Sys2Proof.Machine

/-! ## The execute stage: every instruction as one write and one advance (40_fetch_decode_execute.md) -/

namespace Sys2Proof.Machine

/-- R84 and R88: the execute stage of a checked instruction with legal indices, as the state it leaves and
the increment its advance adds. -/
inductive Executes : Instr → State → State → Nat → Prop
  | load {a r} (ha : regOfIndex a = some r) (b s) :
      Executes (.load a b) s (s.setReg r (s.mem.read b)) 3
  | store {a r} (ha : regOfIndex a = some r) (b s) :
      Executes (.store a b) s (s.store b (s.reg r)) 3
  | add {a b ra rb} (ha : regOfIndex a = some ra) (hb : regOfIndex b = some rb) (s) :
      Executes (.add a b) s (s.setReg ra (alu .add (s.reg ra) (s.reg rb))) 3
  | sub {a b ra rb} (ha : regOfIndex a = some ra) (hb : regOfIndex b = some rb) (s) :
      Executes (.sub a b) s (s.setReg ra (alu .sub (s.reg ra) (s.reg rb))) 3
  | addi {a r} (ha : regOfIndex a = some r) (b s) :
      Executes (.addi a b) s (s.setReg r (alu .add (s.reg r) b)) 3
  | subi {a r} (ha : regOfIndex a = some r) (b s) :
      Executes (.subi a b) s (s.setReg r (alu .sub (s.reg r) b)) 3
  | beqz {a r} (ha : regOfIndex a = some r) (b s) :
      Executes (.beqz a b) s s (if s.reg r = 0 then 3 + b.toNat else 3)

theorem exec_load_of_some {a : Byte} {r : Reg} (ha : regOfIndex a = some r) (b : Byte) (s : State) :
    exec (.load a b) s = .next (advance 3 (s.setReg r (s.mem.read b))) :=
  congrArg Host.Outcome.next (withRegister_of_some ha s _)

theorem exec_store_of_some {a : Byte} {r : Reg} (ha : regOfIndex a = some r) (b : Byte) (s : State) :
    exec (.store a b) s = .next (advance 3 (s.store b (s.reg r))) :=
  congrArg Host.Outcome.next (withRegister_of_some ha s _)

theorem exec_beqz_of_some {a : Byte} {r : Reg} (ha : regOfIndex a = some r) (b : Byte) (s : State) :
    exec (.beqz a b) s = .next (advance (if s.reg r = 0 then 3 + b.toNat else 3) s) := by
  rw [← branchIncrement_eq]
  exact congrArg Host.Outcome.next (withRegister_of_some ha s _)

/-- What `Executes` says is what the model runs. -/
theorem exec_of_executes {i : Instr} {s u : State} {inc : Nat} (h : Executes i s u inc) :
    exec i s = .next (advance inc u) := by
  cases h with
  | load ha b => exact exec_load_of_some ha b s
  | store ha b => exact exec_store_of_some ha b s
  | add ha hb => exact exec_add_of_some ha hb s
  | sub ha hb => exact exec_sub_of_some ha hb s
  | addi ha b => exact exec_addi_of_some ha s b
  | subi ha b => exact exec_subi_of_some ha s b
  | beqz ha b => exact exec_beqz_of_some ha b s

theorem exec_of_executes_of_lt {i : Instr} {s u : State} {inc : Nat} (h : Executes i s u inc)
    (hroom : u.pc.toNat + inc < 256) :
    exec i s = .next { u with pc := BitVec.ofNat 8 (u.pc.toNat + inc) } := by
  rw [exec_of_executes h, advance_of_lt hroom]

theorem exec_of_executes_of_le {i : Instr} {s u : State} {inc : Nat} (h : Executes i s u inc)
    (hoff : 256 ≤ u.pc.toNat + inc) :
    exec i s = .next { u with status := .faulted .programRanOff } := by
  rw [exec_of_executes h, advance_of_le hoff]
  rfl

theorem executes_status {i : Instr} {s u : State} {inc : Nat} (h : Executes i s u inc) :
    u.status = s.status := by
  cases h <;> simp

theorem regOfIndex_eq_none_iff {i : Byte} : regOfIndex i = none ↔ isRegisterIndex i = false := by
  rw [← regOfIndex_isSome]
  simp

theorem exists_regOfIndex {i : Byte} (hi : isRegisterIndex i = true) : ∃ r, regOfIndex i = some r :=
  Option.isSome_iff_exists.mp ((regOfIndex_isSome i).trans hi)

/-- R83: an ill-formed instruction raises InvalidRegister before it reads or writes anything. -/
theorem exec_of_not_wellFormed {i : Instr} (hi : i.wellFormed = false) (s : State) :
    exec i s = .next (raiseFault .invalidRegister s) := by
  have hcheck : ∀ {a : Byte} {k : Reg → State}, isRegisterIndex a = false →
      withRegister a s k = raiseFault .invalidRegister s :=
    fun ha => withRegister_of_none (regOfIndex_eq_none_iff.mpr ha) s _
  have hboth : ∀ {f : AluOp} {a b : Byte}, (isRegisterIndex a && isRegisterIndex b) = false →
      aluRegister f a b s = raiseFault .invalidRegister s := fun hab =>
    aluRegister_of_none ((Bool.and_eq_false_iff.mp hab).imp regOfIndex_eq_none_iff.mpr
      regOfIndex_eq_none_iff.mpr) _ s
  cases i with
  | load | store | addi | subi | beqz => exact congrArg Host.Outcome.next (hcheck hi)
  | add | sub => exact congrArg Host.Outcome.next (hboth hi)
  | jump | halt => cases hi

/-- A well-formed instruction is a Jump, a Halt or has an execute stage followed by an advance. -/
theorem executes_of_wellFormed {i : Instr} (hi : i.wellFormed = true) (s : State) :
    (∃ a b, i = .jump a b) ∨ (∃ a b, i = .halt a b) ∨ ∃ u inc, Executes i s u inc := by
  cases i with
  | load a b => exact .inr (.inr ((exists_regOfIndex hi).elim fun _ ha => ⟨_, _, .load ha b s⟩))
  | store a b => exact .inr (.inr ((exists_regOfIndex hi).elim fun _ ha => ⟨_, _, .store ha b s⟩))
  | add a b =>
    obtain ⟨⟨ra, ha⟩, ⟨rb, hb⟩⟩ := (Bool.and_eq_true_iff.mp hi).imp exists_regOfIndex exists_regOfIndex
    exact .inr (.inr ⟨_, _, .add ha hb s⟩)
  | sub a b =>
    obtain ⟨⟨ra, ha⟩, ⟨rb, hb⟩⟩ := (Bool.and_eq_true_iff.mp hi).imp exists_regOfIndex exists_regOfIndex
    exact .inr (.inr ⟨_, _, .sub ha hb s⟩)
  | addi a b => exact .inr (.inr ((exists_regOfIndex hi).elim fun _ ha => ⟨_, _, .addi ha b s⟩))
  | subi a b => exact .inr (.inr ((exists_regOfIndex hi).elim fun _ ha => ⟨_, _, .subi ha b s⟩))
  | beqz a b => exact .inr (.inr ((exists_regOfIndex hi).elim fun _ ha => ⟨_, _, .beqz ha b s⟩))
  | jump a b => exact .inl ⟨a, b, rfl⟩
  | halt a b => exact .inr (.inl ⟨a, b, rfl⟩)

/-- Everything an instruction can do, said once: a register fault, a Jump, a Halt, or its execute stage and
the advance. -/
theorem exec_cases {i : Instr} {s t : State} (h : exec i s = .next t) :
    (i.wellFormed = false ∧ t = raiseFault .invalidRegister s) ∨
    (∃ a b, i = .jump a b ∧ t = { s with pc := a }) ∨
    (∃ a b, i = .halt a b ∧ t = { s with status := .halted }) ∨
    ∃ u inc, Executes i s u inc ∧ t = advance inc u := by
  have ht : ∀ {t'}, exec i s = .next t' → t = t' := fun h' => Host.Outcome.next.inj (h.symm.trans h')
  cases hi : i.wellFormed with
  | false => exact .inl ⟨rfl, ht (exec_of_not_wellFormed hi s)⟩
  | true =>
    rcases executes_of_wellFormed hi s with ⟨a, b, rfl⟩ | ⟨a, b, rfl⟩ | ⟨u, inc, hu⟩
    · exact .inr (.inl ⟨a, b, rfl, ht (exec_jump a b s)⟩)
    · exact .inr (.inr (.inl ⟨a, b, rfl, ht (exec_halt a b s)⟩))
    · exact .inr (.inr (.inr ⟨u, inc, hu, ht (exec_of_executes hu)⟩))

theorem isRegisterIndex_eq_false_iff {i : Byte} : isRegisterIndex i = false ↔ 2 < i.toNat := by
  rw [isRegisterIndex, decide_eq_false_iff_not, Config.registerCount]
  omega

/-- R83 for an instruction that checks operand a. -/
theorem exec_of_lt_index {i : Instr} {a : Byte} (hi : i.wellFormed = isRegisterIndex a)
    (ha : 2 < a.toNat) (s : State) :
    exec i s = .next { s with status := .faulted .invalidRegister } :=
  exec_of_not_wellFormed (hi.trans (isRegisterIndex_eq_false_iff.mpr ha)) s

/-- R83 and D5 for an instruction that checks operands a and b. -/
theorem exec_of_lt_index_or {i : Instr} {a b : Byte}
    (hi : i.wellFormed = (isRegisterIndex a && isRegisterIndex b)) (hab : 2 < a.toNat ∨ 2 < b.toNat)
    (s : State) : exec i s = .next { s with status := .faulted .invalidRegister } :=
  exec_of_not_wellFormed (hi.trans (Bool.and_eq_false_iff.mpr
    (hab.imp isRegisterIndex_eq_false_iff.mpr isRegisterIndex_eq_false_iff.mpr))) s

theorem alu_add (p q : Byte) : alu .add p q = p + q := by
  rw [← BitVec.toNat_inj, alu_add_toNat, BitVec.toNat_add]

theorem alu_sub (p q : Byte) : alu .sub p q = p - q := by
  have hq := q.isLt
  rw [← BitVec.toNat_inj, alu_sub_toNat, BitVec.toNat_sub]
  omega

/-- The sum as the obligations write it: reduced before it becomes a byte. -/
theorem alu_add_eq_ofNat (p q : Byte) : alu .add p q = BitVec.ofNat 8 ((p.toNat + q.toNat) % 256) := by
  rw [← BitVec.toNat_inj, alu_add_toNat, BitVec.toNat_ofNat]
  omega

/-- The difference as the obligations write it: the integer modulus makes it a byte. -/
theorem alu_sub_eq_ofInt (p q : Byte) :
    alu .sub p q = BitVec.ofInt 8 (((p.toNat : Int) - q.toNat) % 256) := by
  rw [← BitVec.toNat_inj, alu_sub_toNat, BitVec.toNat_ofInt]
  have hq := q.isLt
  omega

theorem ofNat_toNat_add (p : Byte) (n : Nat) : BitVec.ofNat 8 (p.toNat + n) = p + BitVec.ofNat 8 n := by
  rw [BitVec.ofNat_add, BitVec.ofNat_toNat, BitVec.setWidth_eq]

/-- R88 and R90 for an advance by 3: completion, or run-off with the execute stage's write kept. -/
theorem exec_of_executes_three {i : Instr} {s u : State} (h : Executes i s u 3) :
    (u.pc.toNat + 3 < 256 → exec i s = .next { u with pc := u.pc + 3 }) ∧
    (256 ≤ u.pc.toNat + 3 → exec i s = .next { u with status := .faulted .programRanOff }) := by
  refine ⟨fun hroom => ?_, exec_of_executes_of_le h⟩
  rw [exec_of_executes_of_lt h hroom, ofNat_toNat_add]
  rfl

/-- Settles O12: the difference of two bytes is the sum with the negated one, so both write the same byte. -/
theorem subiIsAddiOfNegation : Obligations.SubiIsAddiOfNegation := by
  intro s a k
  have hneg : ∀ p : Byte, alu .sub p k = alu .add p (BitVec.ofNat 8 (256 - k.toNat)) := fun p => by
    rw [← BitVec.toNat_inj, alu_sub_toNat, alu_add_toNat, BitVec.toNat_ofNat]
    omega
  cases ha : regOfIndex a with
  | none =>
    have hi := regOfIndex_eq_none_iff.mp ha
    rw [exec_of_not_wellFormed (i := .subi a k) hi, exec_of_not_wellFormed (i := .addi a _) hi]
  | some r => rw [exec_subi_of_some ha, exec_addi_of_some ha, hneg]

/-- Settles O13: the execute stage writes the byte read into the register. -/
theorem loadReadsMemory : Obligations.LoadReadsMemory := fun s _ b =>
  ⟨fun ha => exec_of_lt_index rfl ha s, fun _ ha => exec_of_executes_three (.load ha b s)⟩

/-- Settles O14: the execute stage writes the register into the byte and leaves the PC alone. -/
theorem storeWritesMemory : Obligations.StoreWritesMemory := fun s _ b =>
  ⟨fun ha => exec_of_lt_index rfl ha s, fun _ ha => exec_of_executes_three (.store ha b s)⟩

/-- Settles O15: the execute stage writes the ALU's sum of the two old values. -/
theorem addWritesWrappedSum : Obligations.AddWritesWrappedSum := by
  intro s a b
  refine ⟨fun hab => exec_of_lt_index_or rfl hab s, fun ra rb ha hb => ?_⟩
  rw [← alu_add_eq_ofNat]
  exact exec_of_executes_three (.add ha hb s)

/-- Settles O16: the execute stage writes the ALU's difference of the two old values. -/
theorem subWritesWrappedDifference : Obligations.SubWritesWrappedDifference := by
  intro s a b
  refine ⟨fun hab => exec_of_lt_index_or rfl hab s, fun ra rb ha hb => ?_⟩
  rw [← alu_sub_eq_ofInt]
  exact exec_of_executes_three (.sub ha hb s)

/-- Settles O17: the execute stage writes the ALU's sum of the old value and operand b itself. -/
theorem addiWritesWrappedSum : Obligations.AddiWritesWrappedSum := by
  intro s a b
  refine ⟨fun ha => exec_of_lt_index rfl ha s, fun r ha => ?_⟩
  rw [← alu_add_eq_ofNat]
  exact exec_of_executes_three (.addi ha b s)

/-- Settles O18: the execute stage writes the ALU's difference of the old value and operand b itself. -/
theorem subiWritesWrappedDifference : Obligations.SubiWritesWrappedDifference := by
  intro s a b
  refine ⟨fun ha => exec_of_lt_index rfl ha s, fun r ha => ?_⟩
  rw [← alu_sub_eq_ofInt]
  exact exec_of_executes_three (.subi ha b s)

/-- Settles O20: the execute stage writes nothing, and the increment depends on the tested register. -/
theorem beqzSkipsForwardOnZero : Obligations.BeqzSkipsForwardOnZero := fun s _ b =>
  ⟨fun ha => exec_of_lt_index rfl ha s, fun _ ha =>
    ⟨exec_of_executes_of_lt (.beqz ha b s), exec_of_executes_of_le (.beqz ha b s)⟩⟩

end Sys2Proof.Machine

/-! ## Frames: what an instruction and a cycle leave unchanged (10_state.md, 40_fetch_decode_execute.md) -/

namespace Sys2Proof.Machine

theorem advance_reg_of_ne (inc : Nat) (s : State) {q : Reg} (hq : q ≠ .pc) :
    (advance inc s).reg q = s.reg q := by
  cases q with
  | pc => exact absurd rfl hq
  | r1 => exact advance_r1 inc s
  | r2 => exact advance_r2 inc s

theorem advance_status_cases (inc : Nat) (s : State) :
    (advance inc s).status = s.status ∨ (advance inc s).status = .faulted .programRanOff := by
  rcases advance_cases inc s with ⟨-, h⟩ | ⟨-, h⟩
  · exact .inl (by rw [h])
  · exact .inr (by rw [h, raiseFault_status])

/-- Only a Halt writes the status otherwise than by a fault. -/
theorem exec_status_cases {i : Instr} {s t : State} (hi : ∀ a b, i ≠ .halt a b)
    (h : exec i s = .next t) :
    t.status = s.status ∨ t.status = .faulted .invalidRegister ∨ t.status = .faulted .programRanOff := by
  obtain ⟨-, rfl⟩ | ⟨a, b, -, rfl⟩ | ⟨a, b, rfl, -⟩ | ⟨u, inc, hu, rfl⟩ := exec_cases h
  · exact .inr (.inl rfl)
  · exact .inl rfl
  · exact absurd rfl (hi a b)
  · rw [← executes_status hu]
    exact (advance_status_cases inc u).imp_right .inr

/-- The execute stage of Load, Add, Sub, Addi and Subi is one write to the register that a names. -/
theorem eq_setReg_of_executes {i : Instr} {s u : State} {inc : Nat} {a b : Byte}
    (hi : i ∈ [Instr.load a b, .add a b, .sub a b, .addi a b, .subi a b]) (hu : Executes i s u inc) :
    ∃ r v, regOfIndex a = some r ∧ u = s.setReg r v := by
  cases hu with
  | store | beqz => simp at hi
  | load ha | add ha | sub ha | addi ha | subi ha =>
    obtain ⟨rfl, rfl⟩ : _ = a ∧ _ = b := by simpa using hi
    exact ⟨_, _, ha, rfl⟩

/-- Inversion of the five register forms: a register fault, or one register write and the advance. -/
theorem exec_registerForm_cases {i : Instr} {s t : State} {a b : Byte}
    (hi : i ∈ [Instr.load a b, .add a b, .sub a b, .addi a b, .subi a b]) (h : exec i s = .next t) :
    t = raiseFault .invalidRegister s ∨
      ∃ r v inc, regOfIndex a = some r ∧ t = advance inc (s.setReg r v) := by
  obtain ⟨-, rfl⟩ | ⟨_, _, rfl, -⟩ | ⟨_, _, rfl, -⟩ | ⟨u, inc, hu, rfl⟩ := exec_cases h
  · exact .inl rfl
  · simp at hi
  · simp at hi
  · obtain ⟨r, v, ha, rfl⟩ := eq_setReg_of_executes hi hu
    exact .inr ⟨r, v, inc, ha, rfl⟩

/-- Settles O22: the one register write and the advance reach the register that a names and the PC only. -/
theorem registerFormsFrame : Obligations.RegisterFormsFrame := by
  intro s t a b i hi h
  have hstatus := exec_status_cases (by rintro a' b' rfl; simp at hi) h
  obtain rfl | ⟨r, v, inc, ha, rfl⟩ := exec_registerForm_cases hi h
  · exact ⟨fun q _ _ => raiseFault_reg s q _, fun y => rfl, hstatus⟩
  · refine ⟨fun q hq hne => ?_, fun y => by simp, hstatus⟩
    have hqr : q ≠ r := fun hqr => hne (hqr ▸ ha)
    rw [advance_reg_of_ne inc _ hq, reg_setReg_of_ne s r q v hqr]

/-- Inversion of a Store: a register fault, or the one byte written and the advance. -/
theorem exec_store_cases {a b : Byte} {s t : State} (h : exec (.store a b) s = .next t) :
    t = raiseFault .invalidRegister s ∨
      ∃ r, regOfIndex a = some r ∧ t = advance 3 (s.store b (s.reg r)) := by
  obtain ⟨-, rfl⟩ | ⟨_, _, hi, -⟩ | ⟨_, _, hi, -⟩ | ⟨u, inc, hu, rfl⟩ := exec_cases h
  · exact .inl rfl
  · cases hi
  · cases hi
  · cases hu with
    | store ha => exact .inr ⟨_, ha, rfl⟩

/-- Settles O23: the one byte written is the one at operand b, and the advance reaches the PC only. -/
theorem storeFrame : Obligations.StoreFrame := by
  intro s t a b h
  have hstatus := exec_status_cases (fun _ _ => Instr.noConfusion) h
  obtain rfl | ⟨r, -, rfl⟩ := exec_store_cases h
  · exact ⟨rfl, rfl, fun _ _ _ _ => rfl, hstatus⟩
  · refine ⟨by simp, by simp, ?_, hstatus⟩
    rintro x rfl y hy
    rw [advance_mem, store_mem]
    exact read_write_of_ne s.mem _ hy

/-- Inversion of a Beqz: a register fault, or the advance alone. -/
theorem exec_beqz_cases {a b : Byte} {s t : State} (h : exec (.beqz a b) s = .next t) :
    t = raiseFault .invalidRegister s ∨ ∃ inc, t = advance inc s := by
  obtain ⟨-, rfl⟩ | ⟨_, _, hi, -⟩ | ⟨_, _, hi, -⟩ | ⟨u, inc, hu, rfl⟩ := exec_cases h
  · exact .inl rfl
  · cases hi
  · cases hi
  · cases hu with
    | beqz ha => exact .inr ⟨_, rfl⟩

/-- Settles O24: a Jump writes the PC, a Halt the status, and a Beqz has the advance alone. -/
theorem controlFormsFrame : Obligations.ControlFormsFrame := by
  intro s t a b i hi h
  simp only [List.mem_cons, List.not_mem_nil, or_false] at hi
  obtain rfl | rfl | rfl := hi
  · obtain rfl := Host.Outcome.next.inj ((exec_jump a b s).symm.trans h)
    exact ⟨rfl, rfl, fun _ => rfl, fun _ => rfl, Instr.noConfusion, Instr.noConfusion⟩
  · have hstatus := exec_status_cases (fun _ _ => Instr.noConfusion) h
    obtain rfl | ⟨inc, rfl⟩ := exec_beqz_cases h
    · exact ⟨rfl, rfl, fun _ => rfl, Instr.noConfusion, fun _ => hstatus, Instr.noConfusion⟩
    · exact ⟨by simp, by simp, by simp, Instr.noConfusion, fun _ => hstatus, Instr.noConfusion⟩
  · obtain rfl := Host.Outcome.next.inj ((exec_halt a b s).symm.trans h)
    exact ⟨rfl, rfl, fun _ => rfl, Instr.noConfusion, Instr.noConfusion, fun _ => rfl⟩

/-- Inversion of fetch and decode: three bytes inside the buffer that are the instruction's encoding. -/
theorem fetchBytes_of_fetchDecode {s : State} {i : Instr} (h : fetchDecode s = .ok i) :
    s.pc.toNat ≤ 253 ∧ fetchBytes s = encode i := by
  have hpc : s.pc.toNat ≤ 253 := by
    by_contra hpc
    rw [fetchDecode_of_lt (by omega)] at h
    cases h
  refine ⟨hpc, ?_⟩
  cases hd : decode (fetchBytes s) with
  | error e =>
    rw [fetchDecode_of_error hpc hd] at h
    cases h
  | ok p =>
    rw [fetchDecode_of_ok hpc hd] at h
    cases h
    exact ((decode_eq_ok_iff_of_length rfl).mp hd).1

/-- Settles O25: a cycle that changes memory ran a Store of a legal register, whose encoding is what it
fetched, and the Store's frame shuts out every byte but the one at operand b. -/
theorem onlyStoreChangesMemory : Obligations.OnlyStoreChangesMemory := by
  intro s t y hstep hy
  obtain ⟨-, ⟨kind, -, rfl⟩ | ⟨i, hfetch, hexec⟩⟩ := step_cases hstep
  · exact absurd rfl hy
  · obtain hmem | ⟨a, b, r, rfl, ha, hmem⟩ := exec_mem_cases hexec
    · exact absurd (by rw [hmem]) hy
    · obtain ⟨hpc, hbytes⟩ := fetchBytes_of_fetchDecode hfetch
      obtain ⟨hop, rfl, rfl⟩ : s.mem.read s.pc = 0x02 ∧ s.mem.read (s.pc + 1) = a ∧
          s.mem.read (s.pc + 2) = b := by simpa [fetchBytes, encode] using hbytes
      have hyb : y = s.mem.read (s.pc + 2) := by
        by_contra hne
        exact hy (by rw [hmem]; exact read_write_of_ne s.mem _ hne)
      refine ⟨hpc, hop, hyb.symm, r, ha, ?_⟩
      rw [hmem, hyb]
      exact read_write_self s.mem _ _

/-- Settles O29: of the four things an instruction can do, only the register fault ends with that status. -/
theorem registerFaultIffIllFormed : Obligations.RegisterFaultIffIllFormed := by
  intro i s hs
  refine ⟨⟨?_, fun hi => ⟨_, exec_of_not_wellFormed hi s, rfl⟩⟩, fun hi => exec_of_not_wellFormed hi s⟩
  rintro ⟨t, h, ht⟩
  obtain ⟨hi, -⟩ | ⟨a, b, -, rfl⟩ | ⟨a, b, -, rfl⟩ | ⟨u, inc, hu, rfl⟩ := exec_cases h
  · exact hi
  · cases hs.symm.trans ht
  · cases ht
  · rcases advance_status_cases inc u with hu' | hu'
    · cases (hs.symm.trans (executes_status hu).symm).trans (hu'.symm.trans ht)
    · cases hu'.symm.trans ht

/-- Settles O34: a Running machine raises the fault of its fetch or runs what it decoded, and every
instruction answers. -/
theorem stepsExactlyWhileRunning : Obligations.StepsExactlyWhileRunning := by
  refine fun s => ⟨fun ⟨t, hstep⟩ => (step_cases hstep).1, fun hs => ?_⟩
  cases hf : fetchDecode s with
  | error kind => exact ⟨_, step_of_error hs hf⟩
  | ok i =>
    rw [step_of_ok hs hf]
    exact exec_answers i s

/-- Settles O28: the fetch check raises before any byte is read. -/
theorem fetchCheckComesFirst : Obligations.FetchCheckComesFirst :=
  fun _ hs hpc => step_of_error hs (fetchDecode_of_lt hpc)

end Sys2Proof.Machine

/-! ## Launch, placed words and runs (70_reset_and_hazards.md) -/

namespace Sys2Proof.Machine

/-- Settles O38: only an image of exactly 256 bytes passes the length check of a launch. -/
theorem launchRefusesOtherLengths : Obligations.LaunchRefusesOtherLengths :=
  fun _ hlen => if_neg hlen

/-- R140: an image of full length is what the host reads back, byte by byte. -/
theorem toBytes_ofBytesFrom_zero {image : List Byte} (hlen : image.length = 256) :
    (Memory.ofBytesFrom 0 image).toBytes = image := by
  refine List.ext_getElem ((toBytes_length _).trans hlen.symm) fun k _ hk => ?_
  have hread := readAt_ofBytesFrom 0 k image hk
  rw [Nat.zero_add] at hread
  simpa [Memory.toBytes] using hread

/-- Settles O39: the launched memory is the image, and reading it in address order gives it back. -/
theorem hostReadsBackItsImage : Obligations.HostReadsBackItsImage := by
  intro image s h
  obtain ⟨hlen, rfl⟩ := launch_eq_next_iff.mp h
  exact toBytes_ofBytesFrom_zero hlen

/-- R137: the first fetch of a launch reads addresses 8, 9 and 10 of the image. -/
theorem fetchBytes_launch {image : List Byte} (hlen : image.length = 256) :
    fetchBytes { State.reset with mem := Memory.ofBytesFrom 0 image } = (image.drop 8).take 3 := by
  have hread {k : Nat} := read_ofBytesFrom_zero hlen.le (k := k)
  rw [List.drop_eq_getElem_cons (by omega), List.drop_eq_getElem_cons (by omega),
    List.drop_eq_getElem_cons (by omega), ← hread (k := 8) (by omega),
    ← hread (k := 9) (by omega), ← hread (k := 10) (by omega)]
  rfl

/-- Settles O40: the launch is Running at the reset PC 8, so its first fetch reads those three bytes. -/
theorem firstCycleRunsInstructionAtEight : Obligations.FirstCycleRunsInstructionAtEight := by
  intro image s i h hd
  obtain ⟨hlen, rfl⟩ := launch_eq_next_iff.mp h
  exact step_of_decode rfl (show (8 : Byte).toNat ≤ 253 by decide)
    ((congrArg decode (fetchBytes_launch hlen)).trans hd)

section
variable (p x y z : Byte) (bytes : List Byte) (s : State)

theorem placeBytes_frame : (placeBytes p bytes s).pc = s.pc ∧ (placeBytes p bytes s).r1 = s.r1 ∧
    (placeBytes p bytes s).r2 = s.r2 ∧ (placeBytes p bytes s).status = s.status := by
  induction bytes generalizing p s with
  | nil => exact ⟨rfl, rfl, rfl, rfl⟩
  | cons v rest ih => exact ih (p + 1) (s.store p v)

theorem placeBytes_three :
    placeBytes p [x, y, z] s = ((s.store p x).store (p + 1) y).store (p + 2) z := by
  rw [show p + 2 = p + 1 + 1 by rw [BitVec.add_assoc]; rfl]
  rfl

theorem read_placeBytes_of_ne {addr : Byte} (h0 : addr ≠ p) (h1 : addr ≠ p + 1) (h2 : addr ≠ p + 2) :
    (placeBytes p [x, y, z] s).mem.read addr = s.mem.read addr := by
  rw [placeBytes_three, store_mem, read_write_of_ne _ _ h2, store_mem, read_write_of_ne _ _ h1,
    store_mem, read_write_of_ne _ _ h0]

/-- Three bytes placed at the PC are what the next cycle fetches: the three addresses differ. -/
theorem fetchBytes_placeBytes : fetchBytes (placeBytes s.pc [x, y, z] s) = [x, y, z] := by
  simp [placeBytes_three, fetchBytes, read_write]

end

theorem readyToFetch_pc_le (s : State) : (readyToFetch s).pc.toNat ≤ 253 := by
  show (if 253 < s.pc.toNat then Config.resetPc else s.pc).toNat ≤ 253
  split
  · decide
  · omega

/-- A PC that leaves room for three bytes is kept. -/
theorem readyToFetch_pc_of_le {s : State} (hpc : s.pc.toNat ≤ 253) : (readyToFetch s).pc = s.pc :=
  if_neg (Nat.not_lt.mpr hpc)

/-- Settles O41: the placed bytes are the encoding of the word's instruction, the placed state is Running
with room to fetch, and placing writes those three bytes only. -/
theorem placedWordRunsNext : Obligations.PlacedWordRunsNext := by
  intro s w i hw
  obtain ⟨x, y, z, hbytes⟩ : ∃ x y z, bytesOfTableWord 24 w = [x, y, z] := ⟨_, _, _, rfl⟩
  have henc : [x, y, z] = encode i := hbytes ▸ decodeTableWord_eq_some_iff.mp hw
  have hplaced : s.withFetchWord 24 w = placeBytes (readyToFetch s).pc [x, y, z] (readyToFetch s) := by
    rw [State.withFetchWord, hbytes]
  obtain ⟨hpc, hr1, hr2, hstatus⟩ := placeBytes_frame (readyToFetch s).pc [x, y, z] (readyToFetch s)
  rw [hplaced]
  refine ⟨step_of_decode hstatus (hpc ▸ readyToFetch_pc_le s) (rest := []) ?_, hr1, hr2,
    fun hs => hstatus.trans hs.symm, fun hle => hpc.trans (readyToFetch_pc_of_le hle),
    fun addr h0 h1 h2 => ?_⟩
  · exact (decode_eq_ok_iff_of_length rfl).mpr ⟨(fetchBytes_placeBytes x y z _).trans henc, rfl⟩
  · rw [hpc] at h0 h1 h2
    exact read_placeBytes_of_ne _ x y z (readyToFetch s) h0 h1 h2

theorem eq_of_step_eq_next {s t u : State} (ht : step s = .next t) (hu : step s = .next u) : t = u :=
  Host.Outcome.next.inj (ht.symm.trans hu)

/-- Settles O42: by induction on the first run. A terminal state ends it at once, for both runs, and
otherwise both begin with the same cycle. -/
theorem runEndsInOneWay : Obligations.RunEndsInOneWay := by
  rintro s t u n m ⟨hnt, ht⟩ ⟨hmu, hu⟩
  induction n generalizing s m with
  | zero =>
    obtain rfl := reachesIn_zero_iff.mp hnt
    cases m with
    | zero => exact ⟨rfl, reachesIn_zero_iff.mp hmu⟩
    | succ m =>
      obtain ⟨v, hstep, -⟩ := reachesIn_succ_iff.mp hmu
      exact absurd hstep (step_ne_next_of_terminal ht v)
  | succ n ih =>
    obtain ⟨v, hstep, hv⟩ := reachesIn_succ_iff.mp hnt
    cases m with
    | zero =>
      obtain rfl := reachesIn_zero_iff.mp hmu
      exact absurd hstep (step_ne_next_of_terminal hu v)
    | succ m =>
      obtain ⟨v', hstep', hv'⟩ := reachesIn_succ_iff.mp hmu
      obtain rfl := eq_of_step_eq_next hstep hstep'
      obtain ⟨rfl, rfl⟩ := ih v m hv hv'
      exact ⟨rfl, rfl⟩

end Sys2Proof.Machine

/-! ## The register file, the status codes and the PC incrementer (10_state.md, 40_fetch_decode_execute.md) -/

namespace Sys2Proof.Machine

/-- Settles O5: the rules of the register file, one by one. -/
theorem registerFileReadsAndWrites : Obligations.RegisterFileReadsAndWrites := by
  refine ⟨rfl, rfl, rfl, fun i => regOfIndex_eq_none_of_lt, fun s r q v => ?_,
    fun _ => ⟨rfl, rfl, rfl⟩, fun s r v => ⟨setReg_mem s r v, setReg_status s r v⟩⟩
  split
  · next hq => rw [hq, reg_setReg_self]
  · next hq => exact reg_setReg_of_ne s r q v hq

theorem statusFaultCode_ne_zero_iff (st : Status) : statusFaultCode st ≠ 0 ↔ statusCode st = 2 := by
  cases st with
  | running => decide
  | halted => decide
  | faulted kind => cases kind <;> decide

theorem faultKindCode_injective {kind kind' : FaultKind} (h : faultKindCode kind = faultKindCode kind') :
    kind = kind' := by
  revert h
  cases kind <;> cases kind' <;> decide

/-- Settles O6: the status code tells the three statuses apart, and the fault code the kinds. -/
theorem statusCodesAreDistinct : Obligations.StatusCodesAreDistinct := by
  refine ⟨rfl, rfl, fun _ => rfl, rfl, rfl, rfl, fun st => ⟨?_, statusFaultCode_ne_zero_iff st⟩,
    fun st st' hcode hfault => ?_⟩
  · cases st <;> simp [statusCode]
  · cases st <;> cases st'
    case running.running => rfl
    case halted.halted => rfl
    case faulted.faulted => exact congrArg Status.faulted (faultKindCode_injective hfault)
    all_goals simp [statusCode] at hcode

/-- Settles O31: the first output is a byte, so the sum modulo 256, and the second compares the whole sum. -/
theorem pcIncrementerSumsAndDetectsRunOff : Obligations.PcIncrementerSumsAndDetectsRunOff := by
  intro p inc _
  exact ⟨BitVec.toNat_ofNat _ 8, decide_eq_true_iff⟩

end Sys2Proof.Machine

/-! ## Loads and stores across cycles (41_load_store.md, 70_reset_and_hazards.md section 3) -/

namespace Sys2Proof.Machine

/-- An advance that leaves the machine Running had room. -/
theorem lt_of_advance_status_eq_running {inc : Nat} {s : State}
    (h : (advance inc s).status = .running) : s.pc.toNat + inc < 256 := by
  by_contra hoff
  rw [advance_of_le (by omega)] at h
  cases h

/-- R98: a Load that does not fault leaves the byte in its register, or in the PC the byte advanced by 3. -/
theorem exec_load_value {a b : Byte} {r : Reg} {s t : State} (ha : regOfIndex a = some r)
    (h : exec (.load a b) s = .next t) (ht : t.status = .running) :
    (r ≠ .pc → t.reg r = s.mem.read b) ∧ (r = .pc → t.pc.toNat = (s.mem.read b).toNat + 3) := by
  obtain rfl := Host.Outcome.next.inj ((exec_load_of_some ha b s).symm.trans h)
  refine ⟨fun hr => ?_, ?_⟩
  · rw [advance_reg_of_ne 3 _ hr, reg_setReg_self]
  · rintro rfl
    have hroom := lt_of_advance_status_eq_running ht
    rw [advance_of_lt hroom]
    exact Nat.mod_eq_of_lt hroom

/-- Settles O35: the Store's byte is its register's value, and a Load that completes delivers the byte. -/
theorem storeThenLoadReturnsValue : Obligations.StoreThenLoadReturnsValue := by
  intro s t a a2 k r rd ha ha2 hstore
  have hk : t.mem.read k = s.reg r := by
    obtain rfl := Host.Outcome.next.inj ((exec_store_of_some ha k s).symm.trans hstore)
    simp
  refine ⟨hk, fun u w hsame _ hload hw => ?_⟩
  rw [← hk, ← hsame]
  exact exec_load_value ha2 hload hw

/-- The step of a Running machine that fetches a Store with room to advance. -/
theorem step_of_read_eq_store {s : State} {r : Reg} (hs : s.status = .running) (hpc : s.pc.toNat ≤ 252)
    (hop : s.mem.read s.pc = 0x02) (ha : regOfIndex (s.mem.read (s.pc + 1)) = some r) :
    step s = .next { s.store (s.mem.read (s.pc + 2)) (s.reg r) with pc := s.pc + 3 } := by
  have hk : opcodeOfByte (s.mem.read s.pc) = some .store := by rw [hop]; rfl
  rw [step_of_decode hs (by omega) (decode_cons_of_opcodeOfByte hk _ _ [])]
  have hroom : s.pc.toNat + 3 < 256 := by omega
  exact (exec_of_executes_three (.store ha _ s)).1 hroom

/-- Settles O36: the Store's step writes its byte and advances, and the next cycle fetches its three bytes
from the memory so written. -/
theorem storeIntoCodeTakesEffectAtNextFetch : Obligations.StoreIntoCodeTakesEffectAtNextFetch := by
  intro s r hs hpc hop ha k patched
  have hread : ∀ y, (s.mem.write k (s.reg r)).read y = patched y := fun y => read_write s.mem k y (s.reg r)
  refine ⟨_, step_of_read_eq_store hs hpc hop ha, rfl, hs, hread, fun hle => ?_⟩
  have hnext : (s.pc + 3).toNat ≤ 253 := by bv_omega
  have hfetch : fetchBytes { s.store k (s.reg r) with pc := s.pc + 3 } =
      [patched (s.pc + 3), patched (s.pc + 4), patched (s.pc + 5)] := by
    simp only [fetchBytes, store_mem, hread, BitVec.add_assoc]
    rfl
  rw [← hfetch]
  exact ⟨fun i hd => step_of_decode hs hnext hd, fun e hd => step_of_decode_error hs hnext hd⟩

end Sys2Proof.Machine

/-! ## Jumps, loops, unused bytes (43_control_transfer.md, 44_halt.md) -/

namespace Sys2Proof.Machine

/-- The step of a Running machine that fetches a Jump: byte b is not read. -/
theorem step_of_read_eq_jump {s : State} (hs : s.status = .running) (hpc : s.pc.toNat ≤ 253)
    (hop : s.mem.read s.pc = 0x07) : step s = .next { s with pc := s.mem.read (s.pc + 1) } := by
  have hk : opcodeOfByte (s.mem.read s.pc) = some .jump := by rw [hop]; rfl
  calc step s
      = exec (.jump (s.mem.read (s.pc + 1)) (s.mem.read (s.pc + 2))) s :=
        step_of_decode hs hpc (decode_cons_of_opcodeOfByte hk _ _ [])
    _ = .next { s with pc := s.mem.read (s.pc + 1) } := exec_jump _ _ s

/-- Settles O44: a Jump is its write of the PC, and the next cycle is an ordinary one at its target. -/
theorem jumpThenCycleAtTarget : Obligations.JumpThenCycleAtTarget := by
  intro s a b
  refine ⟨exec_jump a b s, fun hs => ⟨?_, fun ha i hd => ?_, fun ha => ?_⟩⟩
  · rintro hpc hop rfl
    exact step_of_read_eq_jump hs hpc hop
  · exact step_of_decode (s := { s with pc := a }) hs ha hd
  · exact fetchCheckComesFirst { s with pc := a } hs ha

/-- Settles O45: neither step reads the unused bytes, and the stores reach no byte that it does read. -/
theorem unusedBytesHaveNoMeaning : Obligations.UnusedBytesHaveNoMeaning := by
  intro s v w hs hpc
  have h02 : (s.mem.write (s.pc + 2) v).read s.pc = s.mem.read s.pc := by simp [read_write]
  have h12 : (s.mem.write (s.pc + 2) v).read (s.pc + 1) = s.mem.read (s.pc + 1) := by simp [read_write]
  refine ⟨fun hop => ⟨_, step_of_read_eq_jump hs hpc hop, ?_⟩,
    fun hop => ⟨_, step_of_read_eq_halt hs hpc hop, ?_⟩⟩
  · rw [step_of_read_eq_jump (s := s.store (s.pc + 2) v) hs hpc (h02.trans hop)]
    exact congrArg (fun a => Host.Outcome.next { s.store (s.pc + 2) v with pc := a }) h12
  · refine step_of_read_eq_halt (s := (s.store (s.pc + 1) v).store (s.pc + 2) w) hs hpc ?_
    simpa [read_write] using hop

/-- The relative backward jump: subtracting d + 3 from the PC leaves it, after the advance, at PC - d. -/
theorem exec_subi_pc {s : State} {d : Byte} (hd : d.toNat + 3 ≤ s.pc.toNat) :
    exec (.subi 0 (d + 3)) s = .next { s with pc := s.pc - d } := by
  have hpc : (s.setReg .pc (alu .sub s.pc (d + 3))).pc = s.pc - (d + 3) := alu_sub _ _
  have hroom : (s.setReg .pc (alu .sub s.pc (d + 3))).pc.toNat + 3 < 256 := by rw [hpc]; bv_omega
  have hland : s.pc - (d + 3) + 3 = s.pc - d := by bv_omega
  rw [(exec_of_executes_three (.subi (r := .pc) rfl (d + 3) s)).1 hroom, reg_pc, hpc, hland]
  rfl

theorem reachesIn_self_of_step {s : State} (hstep : step s = .next s) (n : Nat) : ReachesIn n s s := by
  induction n with
  | zero => exact reachesIn_zero_iff.mpr rfl
  | succ n ih => exact reachesIn_succ_iff.mpr ⟨s, hstep, ih⟩

/-- Settles O43: each of the two loops steps to the state it was in. -/
theorem selfLoopsNeverEnd : Obligations.SelfLoopsNeverEnd := by
  intro s hs hpc hloop
  have hstep : step s = .next s := by
    rcases hloop with ⟨hop, ha⟩ | ⟨hop, ha, hb, hle⟩
    · rw [step_of_read_eq_jump hs hpc hop, ha]
    · have hk : opcodeOfByte (s.mem.read s.pc) = some .subi := by rw [hop]; rfl
      rw [step_of_decode hs hpc (decode_cons_of_opcodeOfByte hk _ _ []), ha, hb]
      have hback : (0 : Byte).toNat + 3 ≤ s.pc.toNat := by simpa using hle
      simpa [instrOf] using exec_subi_pc hback
  have hreach := reachesIn_self_of_step hstep
  exact ⟨fun n => ⟨s, hreach n, hs⟩, hreach⟩

end Sys2Proof.Machine

/-! ## The written form and its idioms (30_encoding.md section 4) -/

namespace Sys2Proof.Machine

/-- Settles O3: each word is the encoding of its instruction. -/
theorem writtenOutWordsDecode : Obligations.WrittenOutWordsDecode :=
  ⟨(roundTrip (.load 1 1)).2 [], (roundTrip (.store 1 0)).2 [], (roundTrip (.sub 1 2)).2 [],
    (roundTrip (.addi 1 7)).2 [], (roundTrip (.jump 11 0)).2 [], (roundTrip (.beqz 1 6)).2 [],
    (roundTrip (.halt 0 0)).2 []⟩

/-- R74: the name chosen for an index byte stands for that byte. -/
@[simp] theorem regNameIndex_regNameOfIndex (i : Byte) : regNameIndex (regNameOfIndex i) = i := by
  unfold regNameOfIndex
  split <;> rfl

theorem asmBytes_asmLineOf (i : Instr) : asmBytes (asmLineOf i) = encode i := by
  cases i with
  | jump a b =>
    simp only [asmLineOf]
    split
    · next hb => rw [hb]; rfl
    · rfl
  | halt a b =>
    simp only [asmLineOf]
    split
    · next hab => rw [hab.1, hab.2]; rfl
    · rfl
  | load | store | add | sub | addi | subi | beqz =>
    simp [asmLineOf, asmBytes, encode, numeralValue]

/-- R73: a line but `.byte` writes the three bytes of one instruction. -/
theorem exists_asmBytes_eq_encode {line : AsmLine} (hline : ∀ n, line ≠ .byte n) :
    ∃ i, asmBytes line = encode i := by
  cases line with
  | load r n => exact ⟨.load (regNameIndex r) (numeralValue n), rfl⟩
  | store r n => exact ⟨.store (regNameIndex r) (numeralValue n), rfl⟩
  | add r q => exact ⟨.add (regNameIndex r) (regNameIndex q), rfl⟩
  | sub r q => exact ⟨.sub (regNameIndex r) (regNameIndex q), rfl⟩
  | addi r n => exact ⟨.addi (regNameIndex r) (numeralValue n), rfl⟩
  | subi r n => exact ⟨.subi (regNameIndex r) (numeralValue n), rfl⟩
  | jump n => exact ⟨.jump (numeralValue n) 0, rfl⟩
  | jumpWith n m => exact ⟨.jump (numeralValue n) (numeralValue m), rfl⟩
  | beqz r n => exact ⟨.beqz (regNameIndex r) (numeralValue n), rfl⟩
  | halt => exact ⟨.halt 0 0, rfl⟩
  | haltWith n m => exact ⟨.halt (numeralValue n) (numeralValue m), rfl⟩
  | byte n => exact absurd rfl (hline n)

/-- Settles O46: lines and encodings are the same bytes, and an encoding decodes whatever follows it. -/
theorem assemblyLinesAreInstructions : Obligations.AssemblyLinesAreInstructions := by
  refine ⟨asmBytes_asmLineOf, fun line hline => ?_, fun _ => rfl, rfl,
    fun i => ⟨rfl, regNameIndex_regNameOfIndex i⟩⟩
  obtain ⟨i, hi⟩ := exists_asmBytes_eq_encode hline
  exact ⟨i, fun rest => hi ▸ (roundTrip i).2 rest⟩

theorem setReg_reg_self (s : State) (r : Reg) : s.setReg r (s.reg r) = s := by
  cases r <;> rfl

/-- Settles O47: each idiom's execute stage writes a value that is known, and the advance has room. -/
theorem idiomsHaveTheirEffect : Obligations.IdiomsHaveTheirEffect := by
  intro s
  refine ⟨fun hroom => ⟨rfl, ?_⟩, fun a r ha hroom => ⟨rfl, ?_⟩, fun a r ha hzero hroom => ⟨rfl, ?_⟩,
    fun d hd => ⟨rfl, exec_subi_pc hd⟩, fun k hroom => ⟨rfl, ?_⟩⟩
  · have hsum : alu .add (s.reg .r1) 0 = s.reg .r1 := by simp [alu_add]
    have h := (exec_of_executes_three (.addi (a := 1) (r := .r1) rfl 0 s)).1
    rw [hsum, setReg_reg_self] at h
    exact h hroom
  · have h := (exec_of_executes_three (.sub ha ha s)).1
    rw [alu_sub, BitVec.sub_self] at h
    exact h hroom
  · have h := exec_of_executes_of_lt (.beqz ha 3 s)
    rw [if_pos hzero, ofNat_toNat_add] at h
    exact h hroom
  · exact (exec_of_executes_three (.load (a := 0) (r := .pc) rfl k s)).1 hroom

end Sys2Proof.Machine

/-! ## The functional blocks compute the step (40_fetch_decode_execute.md section 4, D2) -/

namespace Sys2Proof.Machine

/-- R22 and D18: the register numbering, read from the register to its index byte. -/
def indexOfReg : Reg → Byte
  | .pc => 0
  | .r1 => 1
  | .r2 => 2

theorem eq_indexOfReg {i : Byte} {r : Reg} (hi : regOfIndex i = some r) : i = indexOfReg r := by
  unfold regOfIndex at hi
  split at hi <;> cases hi <;> rfl

theorem registerFileBad_eq (i : Byte) : registerFileBad i = !isRegisterIndex i := by
  simp [registerFileBad, isRegisterIndex, ← decide_not]

theorem registerFileRead_of_some {i : Byte} {r : Reg} (hi : regOfIndex i = some r) (s : State) :
    registerFileRead s i = s.reg r := by
  obtain rfl := eq_indexOfReg hi
  cases r <;> rfl

theorem registerFileWrite_of_some {i : Byte} {r : Reg} (hi : regOfIndex i = some r) (s : State)
    (v : Byte) : registerFileWrite s true i v = s.setReg r v := by
  obtain rfl := eq_indexOfReg hi
  cases r <;> rfl

/-- The row INVALID of R70 is every byte outside the opcode map. -/
theorem instructionDecoder_eq_none :
    ∀ op : Byte, opcodeOfByte op = none → instructionDecoder op = none := by decide

/-- R27: the check outputs, combined as the row says, raise exactly for the ill-formed instructions. -/
theorem checkOutputs_eq_not_wellFormed {k : Opcode} {c : Control}
    (hc : instructionDecoder (byteOfOpcode k) = some c) (a b : Byte) :
    ((c.chkA && registerFileBad a) || (c.chkB && registerFileBad b)) = !(instrOf k a b).wellFormed := by
  cases k <;> cases hc <;> simp [registerFileBad_eq, instrOf, Instr.wellFormed]

/-- The execute and advance blocks, driven by the row of R70, do what the instruction's execute stage and its
advance do. -/
theorem advanceBlock_of_executes {k : Opcode} {c : Control} {a b : Byte} {s u : State} {inc : Nat}
    (hc : instructionDecoder (byteOfOpcode k) = some c) (hu : Executes (instrOf k a b) s u inc) :
    advanceBlock c a b (executeBlock c a b s) = advance inc u := by
  cases k with
  | load =>
    cases hc
    cases hu with
    | load ha => exact congrArg (advance 3) (registerFileWrite_of_some ha s _)
  | store =>
    cases hc
    cases hu with
    | store ha => exact congrArg (fun v => advance 3 (s.store b v)) (registerFileRead_of_some ha s)
  | add | sub =>
    cases hc
    cases hu
    next ha hb =>
    rw [← registerFileWrite_of_some ha, ← registerFileRead_of_some ha, ← registerFileRead_of_some hb]
    rfl
  | addi | subi =>
    cases hc
    cases hu
    next ha =>
    rw [← registerFileWrite_of_some ha, ← registerFileRead_of_some ha]
    rfl
  | beqz =>
    cases hc
    cases hu with
    | beqz ha =>
      rw [← registerFileRead_of_some ha]
      rfl
  | jump | halt => cases hu

/-- A well-formed instruction answers what the blocks compute after the register check. -/
theorem exec_eq_advanceBlock {k : Opcode} {c : Control} {a b : Byte}
    (hc : instructionDecoder (byteOfOpcode k) = some c) (hi : (instrOf k a b).wellFormed = true)
    (s : State) : exec (instrOf k a b) s = .next (advanceBlock c a b (executeBlock c a b s)) := by
  rcases executes_of_wellFormed hi s with ⟨_, _, hjump⟩ | ⟨_, _, hhalt⟩ | ⟨u, inc, hu⟩
  · cases k <;> cases hjump
    cases hc
    rfl
  · cases k <;> cases hhalt
    cases hc
    rfl
  · rw [advanceBlock_of_executes hc hu, exec_of_executes hu]

/-- Settles O32: the fetch check, the decoder's row, the check outputs and the two last stages, in the order
in which the step decides them. -/
theorem blockCycleIsStep : Obligations.BlockCycleIsStep := by
  intro s hs
  rcases Nat.lt_or_ge 253 s.pc.toNat with hpc | hpc
  · rw [blockCycle, if_pos hpc]
    exact fetchCheckComesFirst s hs hpc
  rw [blockCycle, if_neg (Nat.not_lt.mpr hpc)]
  cases hk : opcodeOfByte (s.mem.read s.pc) with
  | none =>
    rw [step_of_decode_error hs hpc (decode_cons_of_opcodeOfByte_eq_none hk _ _ [])]
    simp [memoryFetchPort, instructionDecoder_eq_none _ hk, raiseFault]
  | some k =>
    rw [step_of_decode hs hpc (decode_cons_of_opcodeOfByte hk _ _ [])]
    obtain ⟨c, hc⟩ : ∃ c, instructionDecoder (byteOfOpcode k) = some c := by cases k <;> exact ⟨_, rfl⟩
    have hrow : instructionDecoder (s.mem.read s.pc) = some c := by rwa [opcodeOfByte_eq_some_iff.mp hk]
    simp only [memoryFetchPort, hrow, checkOutputs_eq_not_wellFormed hc]
    split
    · next hi => exact exec_of_not_wellFormed (by simpa using hi) s
    · next hi => exact exec_eq_advanceBlock hc (by simpa using hi) s

end Sys2Proof.Machine

/-! ## The status a cycle ends with (10_state.md section 3, 40_fetch_decode_execute.md sections 2 and 3) -/

namespace Sys2Proof.Machine

section
variable (s : State)

/-- The three fetched bytes as numbers. -/
def opAt : Nat := (s.mem.read s.pc).toNat

def operandAAt : Nat := (s.mem.read (s.pc + 1)).toNat

def operandBAt : Nat := (s.mem.read (s.pc + 2)).toNat

/-- `x[i]` of R13 as numbers, for the indices of R22. -/
def regAt (i : Nat) : Nat := (if i = 0 then s.pc else if i = 1 then s.r1 else s.r2).toNat

/-- The opcodes whose row of R70 checks operand a. -/
def CheckedOp : Prop := (1 ≤ opAt s ∧ opAt s ≤ 6) ∨ opAt s = 8

/-- R83: some checked operand names no register. -/
def IllegalOperand : Prop :=
  (CheckedOp s ∧ 2 < operandAAt s) ∨ ((opAt s = 3 ∨ opAt s = 4) ∧ 2 < operandBAt s)

/-- What the execute stage writes when its destination is the PC. -/
def writtenToPc : Nat :=
  if opAt s = 1 then (s.mem.read (s.mem.read (s.pc + 2))).toNat
  else if opAt s = 3 then (s.pc.toNat + regAt s (operandBAt s)) % 256
  else if opAt s = 4 then (s.pc.toNat + (256 - regAt s (operandBAt s))) % 256
  else if opAt s = 5 then (s.pc.toNat + operandBAt s) % 256
  else (s.pc.toNat + (256 - operandBAt s)) % 256

/-- The PC after the execute stage, D17. -/
def pcAfterExecute : Nat :=
  if operandAAt s = 0 ∧ (opAt s = 1 ∨ (3 ≤ opAt s ∧ opAt s ≤ 6)) then writtenToPc s else s.pc.toNat

/-- The increment of R81. -/
def incrementAt : Nat := if opAt s = 8 ∧ regAt s (operandAAt s) = 0 then 3 + operandBAt s else 3

/-- The condition on the state before a cycle under which the cycle ends with a status. -/
def EndCondition : Status → Prop
  | .halted => s.pc.toNat ≤ 253 ∧ opAt s = 0xff
  | .faulted .invalidOpcode => s.pc.toNat ≤ 253 ∧ (opAt s = 0 ∨ (9 ≤ opAt s ∧ opAt s ≤ 0xfe))
  | .faulted .invalidRegister => s.pc.toNat ≤ 253 ∧ IllegalOperand s
  | .faulted .programRanOff =>
    253 < s.pc.toNat ∨ (CheckedOp s ∧ ¬ IllegalOperand s ∧ 256 ≤ pcAfterExecute s + incrementAt s)
  | .running =>
    s.pc.toNat ≤ 253 ∧
      (opAt s = 7 ∨ (CheckedOp s ∧ ¬ IllegalOperand s ∧ pcAfterExecute s + incrementAt s < 256))

end

/-- A byte outside the opcode map is 0x00 or 0x09 to 0xfe. -/
theorem toNat_of_opcodeOfByte_eq_none :
    ∀ op : Byte, opcodeOfByte op = none → op.toNat = 0 ∨ (9 ≤ op.toNat ∧ op.toNat ≤ 0xfe) := by decide

/-- The fault a cycle raises before execute, by its end condition. -/
theorem endCondition_of_fetchDecode_error {s : State} {kind : FaultKind}
    (hf : fetchDecode s = .error kind) : EndCondition s (.faulted kind) := by
  by_cases hpc : 253 < s.pc.toNat
  · rw [fetchDecode_of_lt hpc] at hf
    cases hf
    exact .inl hpc
  have hle : s.pc.toNat ≤ 253 := Nat.not_lt.mp hpc
  cases hk : opcodeOfByte (s.mem.read s.pc) with
  | none =>
    rw [fetchDecode_of_error hle (decode_cons_of_opcodeOfByte_eq_none hk _ _ [])] at hf
    cases hf
    exact ⟨hle, toNat_of_opcodeOfByte_eq_none _ hk⟩
  | some k =>
    rw [fetchDecode_of_ok hle (decode_cons_of_opcodeOfByte hk _ _ [])] at hf
    cases hf

theorem fetched_of_fetchBytes {s : State} {op a b : Byte} (h : fetchBytes s = [op, a, b]) :
    opAt s = op.toNat ∧ operandAAt s = a.toNat ∧ operandBAt s = b.toNat := by
  obtain ⟨hop, ha, hb⟩ : s.mem.read s.pc = op ∧ s.mem.read (s.pc + 1) = a ∧
      s.mem.read (s.pc + 2) = b := by simpa [fetchBytes] using h
  exact ⟨congrArg BitVec.toNat hop, congrArg BitVec.toNat ha, congrArg BitVec.toNat hb⟩

theorem illegalOperand_iff {s : State} {i : Instr} (hbytes : fetchBytes s = encode i) :
    IllegalOperand s ↔ i.wellFormed = false := by
  cases i <;> obtain ⟨hop, ha, hb⟩ := fetched_of_fetchBytes hbytes <;>
    simp [IllegalOperand, CheckedOp, hop, ha, hb, Instr.wellFormed, isRegisterIndex_eq_false_iff,
      -Bool.and_eq_false_imp, Bool.and_eq_false_iff]

theorem checkedOp_of_executes {s u : State} {i : Instr} {inc : Nat} (hbytes : fetchBytes s = encode i)
    (hu : Executes i s u inc) : CheckedOp s := by
  cases hu <;> obtain ⟨hop, -, -⟩ := fetched_of_fetchBytes hbytes <;> simp [CheckedOp, hop]

theorem isRegisterIndex_of_some {i : Byte} {r : Reg} (hi : regOfIndex i = some r) :
    isRegisterIndex i = true := by
  rw [← regOfIndex_isSome, hi]
  rfl

theorem wellFormed_of_executes {s u : State} {i : Instr} {inc : Nat} (hu : Executes i s u inc) :
    i.wellFormed = true := by
  cases hu with
  | load ha | store ha | addi ha | subi ha | beqz ha => exact isRegisterIndex_of_some ha
  | add ha hb | sub ha hb =>
    exact Bool.and_eq_true_iff.mpr ⟨isRegisterIndex_of_some ha, isRegisterIndex_of_some hb⟩

theorem regAt_of_some {i : Byte} {r : Reg} (hi : regOfIndex i = some r) (s : State) :
    regAt s i.toNat = (s.reg r).toNat := by
  obtain rfl := eq_indexOfReg hi
  cases r <;> rfl

theorem toNat_eq_zero_iff_of_some {i : Byte} {r : Reg} (hi : regOfIndex i = some r) :
    i.toNat = 0 ↔ r = .pc := by
  obtain rfl := eq_indexOfReg hi
  cases r <;> simp [indexOfReg]

theorem setReg_pc_toNat (s : State) (r : Reg) (v : Byte) :
    (s.setReg r v).pc.toNat = if r = .pc then v.toNat else s.pc.toNat := by
  cases r <;> rfl

theorem incrementAt_of_executes {s u : State} {i : Instr} {inc : Nat} (hbytes : fetchBytes s = encode i)
    (hu : Executes i s u inc) : incrementAt s = inc := by
  cases hu with
  | beqz ha =>
    obtain ⟨hop, hA, hB⟩ := fetched_of_fetchBytes hbytes
    simp [incrementAt, hop, hA, hB, regAt_of_some ha, ← BitVec.toNat_inj]
  | load | store | add | sub | addi | subi =>
    obtain ⟨hop, -, -⟩ := fetched_of_fetchBytes hbytes
    simp [incrementAt, hop]

theorem pcAfterExecute_of_executes {s u : State} {i : Instr} {inc : Nat}
    (hbytes : fetchBytes s = encode i) (hu : Executes i s u inc) : pcAfterExecute s = u.pc.toNat := by
  cases hu with
  | load ha b =>
    obtain ⟨hop, hA, hB⟩ := fetched_of_fetchBytes hbytes
    obtain rfl : s.mem.read (s.pc + 2) = b := BitVec.eq_of_toNat_eq hB
    simp [pcAfterExecute, writtenToPc, hop, hA, toNat_eq_zero_iff_of_some ha, setReg_pc_toNat]
  | add ha hb | sub ha hb =>
    obtain ⟨hop, hA, hB⟩ := fetched_of_fetchBytes hbytes
    simp +contextual [pcAfterExecute, writtenToPc, hop, hA, hB, toNat_eq_zero_iff_of_some ha,
      setReg_pc_toNat, regAt_of_some hb, alu_add_toNat, alu_sub_toNat]
  | addi ha b | subi ha b =>
    obtain ⟨hop, hA, hB⟩ := fetched_of_fetchBytes hbytes
    simp +contextual [pcAfterExecute, writtenToPc, hop, hA, hB, toNat_eq_zero_iff_of_some ha,
      setReg_pc_toNat, alu_add_toNat, alu_sub_toNat]
  | store | beqz =>
    obtain ⟨hop, -, -⟩ := fetched_of_fetchBytes hbytes
    simp [pcAfterExecute, hop]

/-- The end condition holds for the status that an executed instruction leaves. -/
theorem endCondition_of_exec {s t : State} {i : Instr} (hs : s.status = .running)
    (hpc : s.pc.toNat ≤ 253) (hbytes : fetchBytes s = encode i) (h : exec i s = .next t) :
    EndCondition s t.status := by
  obtain ⟨hi, rfl⟩ | ⟨a, b, rfl, rfl⟩ | ⟨a, b, rfl, rfl⟩ | ⟨u, inc, hu, rfl⟩ := exec_cases h
  · exact ⟨hpc, (illegalOperand_iff hbytes).mpr hi⟩
  · rw [show State.status { s with pc := a } = .running from hs]
    exact ⟨hpc, .inl (fetched_of_fetchBytes hbytes).1⟩
  · exact ⟨hpc, (fetched_of_fetchBytes hbytes).1⟩
  · have hchecked := checkedOp_of_executes hbytes hu
    have hlegal : ¬ IllegalOperand s := by
      rw [illegalOperand_iff hbytes, wellFormed_of_executes hu]
      exact Bool.noConfusion
    rcases advance_cases inc u with ⟨hroom, hadv⟩ | ⟨hoff, hadv⟩
    · rw [hadv, show State.status { u with pc := _ } = .running from (executes_status hu).trans hs]
      refine ⟨hpc, .inr ⟨hchecked, hlegal, ?_⟩⟩
      rwa [pcAfterExecute_of_executes hbytes hu, incrementAt_of_executes hbytes hu]
    · rw [hadv, raiseFault_status]
      refine .inr ⟨hchecked, hlegal, ?_⟩
      rwa [pcAfterExecute_of_executes hbytes hu, incrementAt_of_executes hbytes hu]

theorem endCondition_of_step {s t : State} (h : step s = .next t) : EndCondition s t.status := by
  obtain ⟨hs, ⟨kind, hf, rfl⟩ | ⟨i, hf, hexec⟩⟩ := step_cases h
  · exact endCondition_of_fetchDecode_error hf
  · obtain ⟨hpc, hbytes⟩ := fetchBytes_of_fetchDecode hf
    exact endCondition_of_exec hs hpc hbytes hexec

/-- The five conditions exclude each other: they part the PC, the opcode byte, the operand check and the
sum of the advance. -/
theorem status_eq_of_endCondition {s : State} {st st' : Status} (h : EndCondition s st)
    (h' : EndCondition s st') : st = st' := by
  rcases st with _ | _ | _ | _ | _ <;> rcases st' with _ | _ | _ | _ | _ <;>
    simp only [EndCondition, CheckedOp, IllegalOperand, reduceCtorEq] at h h' ⊢ <;> omega

theorem status_eq_iff_endCondition {s t : State} (h : step s = .next t) (st : Status) :
    t.status = st ↔ EndCondition s st :=
  ⟨fun ht => ht ▸ endCondition_of_step h, status_eq_of_endCondition (endCondition_of_step h)⟩

/-- Settles O30: a Running machine steps, the status it ends with meets its condition, and no state meets
the conditions of two statuses. -/
theorem statusAfterStepByFetchedBytes : Obligations.StatusAfterStepByFetchedBytes := by
  intro s hs
  obtain ⟨t, hstep⟩ := (stepsExactlyWhileRunning s).mpr hs
  have hiff := status_eq_iff_endCondition hstep
  exact ⟨t, hstep, hiff .halted, hiff (.faulted .invalidOpcode), hiff (.faulted .invalidRegister),
    hiff (.faulted .programRanOff), hiff .running⟩

end Sys2Proof.Machine
